-- ==== Sys2Proof/Word.lean ====
section
/-! DEFINITION. The word types of the core: 00_scope.md rule R9 fixes the names (a word is 32 bits, a halfword 16, a byte 8,
a nibble 4) and says that bits are numbered from 0 at the least significant bit and that every value is unsigned. -/

namespace Sys2Proof

/-- A word, 32 bits (R9). -/
abbrev Word := BitVec 32

/-- A halfword, 16 bits (R9): also the width of a command's operand field ARG (R80). -/
abbrev Half := BitVec 16

/-- A byte, 8 bits (R9). -/
abbrev Byte := BitVec 8

/-- A nibble, 4 bits (R9). -/
abbrev Nibble := BitVec 4

/-- An 8-word vector, word 0 least significant: "exactly 8×32-bit words (256 bits)" (R13, R60). The running hash, the running
sum, a message block, a set of round keys and the working vectors of a compression are all of this shape. -/
abbrev Block := Vector Word 8

end Sys2Proof
end

