-- ==== Sys2Proof/Syntax.lean ====
section
/-! DEFINITION. The commands of the core, one constructor per row of spec/opcode_table.json (30_encoding.md rule R83), and the
fields of the one command format C (rule R80). A mode of H_INIT or C_INIT is a row of its own, so it is a constructor; the
operand of H_PUT, C_PUT and RD is the 16-bit field ARG, used unsigned and never extended, scaled or shifted (rule R81). -/

namespace Sys2Proof

/-- The ten commands of rule R83. -/
inductive Instr where
  /-- H_INIT.RAW: open a hash session whose operands are message bytes (R140). -/
  | hInitRaw
  /-- H_INIT.HEX: open a hash session whose operands are hex digits (R140). -/
  | hInitHex
  /-- H_INIT.TEXT: open a hash session whose operands are 16-bit code units (R140). -/
  | hInitText
  /-- H_PUT: one datum of the hash session, read as HMODE says (R141, R87). -/
  | hPut (arg : Half)
  /-- H_FINAL: close the hash session and produce the digest (R146). -/
  | hFinal
  /-- C_INIT.TEXT: open a CRC session whose operands are bytes (R162). -/
  | cInitText
  /-- C_INIT.HEX: open a CRC session whose operands are hex digits (R162). -/
  | cInitHex
  /-- C_PUT: one datum of the CRC session, read as CMODE says (R163, R87). -/
  | cPut (arg : Half)
  /-- C_FINAL: close the CRC session and produce the checksum (R164). -/
  | cFinal
  /-- RD: read the entry of the index space that the operand names (R175). -/
  | rd (index : Half)
  deriving DecidableEq, Repr

/-- The fields of format C (R80): OPC in bits 31:24, Z in bits 23:16, ARG in bits 15:0. -/
structure CommandFields where
  opc : BitVec 8
  z : BitVec 8
  arg : Half
  deriving DecidableEq, Repr

end Sys2Proof
end

