-- ==== Sys2Proof/WellFormed.lean ====
section
/-! DEFINITION. When the fields of a command word are one of the ten rows of the opcode table (30_encoding.md rules R83 and R85).
A value of `Instr` needs no check of its own: its only operand is a `BitVec 16`, exactly the field ARG, and the modes are
constructors. What can be ill formed is a triple of fields, and each clause of rule R85 is one check here. -/

namespace Sys2Proof

/-- "any word with `Z != 0`" is illegal (R85). -/
def CommandFields.zIsZero (f : CommandFields) : Bool := f.z == 0

/-- "every OPC other than 0x10, 0x11, 0x12, 0x20, 0x21, 0x22, 0x30" is illegal (R85). -/
def CommandFields.opcIsKnown (f : CommandFields) : Bool :=
  f.opc == 0x10 || f.opc == 0x11 || f.opc == 0x12 || f.opc == 0x20 || f.opc == 0x21 || f.opc == 0x22 || f.opc == 0x30

/-- "OPC 0x10 with `ARG > 2`" is illegal (R85). -/
def CommandFields.hashModeExists (f : CommandFields) : Bool := f.opc != 0x10 || f.arg ≤ 2

/-- "OPC 0x20 with `ARG > 1`" is illegal (R85). -/
def CommandFields.crcModeExists (f : CommandFields) : Bool := f.opc != 0x20 || f.arg ≤ 1

/-- "OPC 0x12 or 0x22 with `ARG != 0`" is illegal (R85). -/
def CommandFields.finalArgIsZero (f : CommandFields) : Bool := (f.opc != 0x12 && f.opc != 0x22) || f.arg == 0

/-- The fields are one of the ten rows of rule R83: none of the clauses of rule R85 applies. -/
def CommandFields.wellFormed (f : CommandFields) : Bool :=
  f.zIsZero && f.opcIsKnown && f.hashModeExists && f.crcModeExists && f.finalArgIsZero

end Sys2Proof
end

