-- ==== Sys2Proof/Decode.lean ====
section
/-! DEFINITION. Decoding and encoding of command words (30_encoding.md rules R80 to R88). Decoding reads only the word and is
total on all 2^32 words (rule R84); a word of no row is rejected by the name of the clause of rule R85 it falls under. -/

namespace Sys2Proof

/-- Why a word is no command: the clauses of rule R85. Executing it raises E_ILLEGAL whichever it is. -/
inductive DecodeReject where
  /-- `Z != 0`. -/
  | zNotZero
  /-- OPC is none of the seven. -/
  | noSuchOpc
  /-- OPC 0x10 with `ARG > 2`. -/
  | noSuchHashMode
  /-- OPC 0x20 with `ARG > 1`. -/
  | noSuchCrcMode
  /-- OPC 0x12 or 0x22 with `ARG != 0`. -/
  | finalArgNotZero
  deriving DecidableEq, Repr

/-- What `decode(CW)` answers (R84): the row that matches, or ILLEGAL. -/
inductive Decoded where
  | command (i : Instr)
  | illegal (why : DecodeReject)
  deriving DecidableEq, Repr

/-- The fields of a command word (R80). -/
def splitWord (cw : Word) : CommandFields :=
  { opc := cw.extractLsb' 24 8, z := cw.extractLsb' 16 8, arg := cw.extractLsb' 0 16 }

/-- The row that the fields name (R83), or the clause of R85 that rejects them. -/
def decodeFields (f : CommandFields) : Decoded :=
  if f.z ≠ 0 then .illegal .zNotZero
  else if f.opc = 0x10 then
    if f.arg = 0 then .command .hInitRaw
    else if f.arg = 1 then .command .hInitHex
    else if f.arg = 2 then .command .hInitText
    else .illegal .noSuchHashMode
  else if f.opc = 0x11 then .command (.hPut f.arg)
  else if f.opc = 0x12 then
    if f.arg = 0 then .command .hFinal else .illegal .finalArgNotZero
  else if f.opc = 0x20 then
    if f.arg = 0 then .command .cInitText
    else if f.arg = 1 then .command .cInitHex
    else .illegal .noSuchCrcMode
  else if f.opc = 0x21 then .command (.cPut f.arg)
  else if f.opc = 0x22 then
    if f.arg = 0 then .command .cFinal else .illegal .finalArgNotZero
  else if f.opc = 0x30 then .command (.rd f.arg)
  else .illegal .noSuchOpc

/-- `decode(CW)` (R84): it reads no state, neither a session nor a mode. -/
def decode (cw : Word) : Decoded := decodeFields (splitWord cw)

/-- The word of fields in format C (R80). -/
def packWord (f : CommandFields) : Word := f.opc ++ f.z ++ f.arg

/-- The fields of a command, row by row of rule R83. -/
def encodeFields : Instr → CommandFields
  | .hInitRaw => { opc := 0x10, z := 0, arg := 0 }
  | .hInitHex => { opc := 0x10, z := 0, arg := 1 }
  | .hInitText => { opc := 0x10, z := 0, arg := 2 }
  | .hPut arg => { opc := 0x11, z := 0, arg := arg }
  | .hFinal => { opc := 0x12, z := 0, arg := 0 }
  | .cInitText => { opc := 0x20, z := 0, arg := 0 }
  | .cInitHex => { opc := 0x20, z := 0, arg := 1 }
  | .cPut arg => { opc := 0x21, z := 0, arg := arg }
  | .cFinal => { opc := 0x22, z := 0, arg := 0 }
  | .rd index => { opc := 0x30, z := 0, arg := index }

/-- The command word of a command (R83). -/
def encode (i : Instr) : Word := packWord (encodeFields i)

/-- The command the decoder reads from the `nbits` low bits of `w`, for the host's table check. Every command is one 32-bit word
presented on the command port (R80, R88), so no byte order enters; a longer instruction does not exist. -/
def decodeTableWord (nbits w : Nat) : Option Instr :=
  if nbits ≤ 32 then
    match decode (BitVec.ofNat 32 (w % 2 ^ nbits)) with
    | .command i => some i
    | .illegal _ => none
  else none

end Sys2Proof
end

