-- ==== Sys2Proof/Config.lean ====
section
/-! DEFINITION. The quantities fixed for every instance of the core (00_scope.md rules R7 and R8). The spec leaves no parameter
open (92_eei_decisions.md: no OPEN row) and no value undefined (93_implementation_defined.md: nothing is stuck or any value), so
there is no free value and no opaque constant here. -/

namespace Sys2Proof.Config

/-- Bytes of one block and of the pending buffer: 32 (R7). -/
def blockBytes : Nat := 32

/-- The longest message: `2^61 - 1` bytes, the largest value of the 61-bit counter CNT (R26, D4). -/
def maxMessageBytes : Nat := 2 ^ 61 - 1

end Sys2Proof.Config
end

