-- ==== Sys2Proof/Machine/State.lean ====
section
/-! DEFINITION. The state of the core (10_state.md rules R23 to R35), every element the spec gives it, and the two sides of its
port: the command stream and the responses, which the spec makes parameters and results of `step` (00_scope.md rule R12,
10_state.md rule R46) and the host's form of a machine keeps in the state. The constant tables SBOX, T1 to T4 and CRCTAB
(rules R20 to R22) are no fields, since nothing writes them: they are the functions of Machine/Tables.lean. -/

namespace Sys2Proof.Machine

/-- HS and CS, 2 bits: the state of a session (R27, R32). All four codes are used. -/
inductive Session where
  /-- 0: no session since reset. -/
  | idle
  /-- 1: after INIT; PUT and FINAL are valid. -/
  | active
  /-- 2: after a successful FINAL; the result is readable. -/
  | done
  /-- 3: an operand error ended the session; no result. -/
  | failed
  deriving DecidableEq, Repr

/-- HMODE, 2 bits: the input mode of the hash session (R28). "Value 3 never occurs", so there is no constructor for it. -/
inductive HashMode where
  /-- 0: each operand is one message byte. -/
  | raw
  /-- 1: operands are hex digits, two per byte. -/
  | hex
  /-- 2: operands are 16-bit code units. -/
  | text
  deriving DecidableEq, Repr

/-- CMODE, 1 bit: the input mode and output format of the CRC session (R32). -/
inductive CrcMode where
  /-- 0: each operand is one byte; the result is rendered without zero padding. -/
  | text
  /-- 1: operands are hex digits; the result is rendered to exactly 8 digits. -/
  | hex
  deriving DecidableEq, Repr

/-- The response codes of 60_exceptions.md rule R180, and the values of ERR (R35). Codes 8 to 15 are never produced. -/
inductive Code where
  /-- 0, success; in ERR: no error since reset. -/
  | ok
  /-- 1: the word matches no row of the opcode table. -/
  | eIllegal
  /-- 2: the command needs an ACTIVE session. -/
  | eState
  /-- 3: not a hex digit, or a digit left unpaired. -/
  | eHex
  /-- 4: a surrogate code unit in a TEXT hash session. -/
  | eCodepoint
  /-- 5: an operand above 0x00FF in a byte mode. -/
  | eRange
  /-- 6: the message would exceed `2^61 - 1` bytes. -/
  | eLength
  /-- 7: RD of an unmapped index. -/
  | eAddr
  deriving DecidableEq, Repr

/-- A response: a 4-bit code and a 32-bit datum (R12, R89). -/
structure Response where
  code : Code
  data : Word
  deriving DecidableEq, Repr

/-- What the host does at the core's inputs (R46, R90, R206): present a command word, or assert `rst`. -/
inductive PortInput where
  | command (cw : Word)
  | reset
  deriving DecidableEq, Repr

/-- The hash context (10_state.md section 2). -/
structure HashCtx where
  /-- `H[0..7]`, the running hash (R23). -/
  h : Block
  /-- `SUM[0..7]`, the running sum (R24). -/
  sum : Block
  /-- `BUF[0..31]`, the pending block (R25). -/
  buf : Vector Byte 32
  /-- `CNT`, 61 bits: message bytes absorbed since H_INIT (R26). -/
  cnt : BitVec 61
  /-- `HS` (R27). -/
  hs : Session
  /-- `HMODE` (R28). -/
  hmode : HashMode
  /-- `HNV`, 1 bit: one hex digit of a pair has arrived (R29). -/
  hnv : Bool
  /-- `HNIB`, 4 bits: the value of that digit (R29). -/
  hnib : Nibble
  /-- `HOUT[0..63]`, the digest text (R30). -/
  hout : Vector Byte 64
  deriving DecidableEq, Repr

/-- The CRC context (10_state.md section 3). -/
structure CrcCtx where
  /-- `CRC`, the accumulator (R31). -/
  crc : Word
  /-- `CS` (R32). -/
  cs : Session
  /-- `CMODE` (R32). -/
  cmode : CrcMode
  /-- `CNV`, 1 bit (R33). -/
  cnv : Bool
  /-- `CNIB`, 4 bits (R33). -/
  cnib : Nibble
  /-- `COUT[0..7]`, the CRC text (R34). -/
  cout : Vector Byte 8
  /-- `COUTLEN`, 4 bits: how many characters of COUT are the result (R34). -/
  coutlen : BitVec 4
  deriving DecidableEq, Repr

/-- The state of the machine. -/
structure State where
  /-- The hash context (R23 to R30). -/
  hashCtx : HashCtx
  /-- The CRC context (R31 to R34). -/
  crcCtx : CrcCtx
  /-- `ERR`, 4 bits: the code of the first error since reset (R35). -/
  err : Code
  /-- THE MODEL'S OWN FIELD (notes/assumptions/1.md): what the host is yet to present at the port, next first. In the spec this
  is a parameter of `step` (R12, R46). -/
  inputs : List PortInput
  /-- THE MODEL'S OWN FIELD (notes/assumptions/1.md): the responses produced so far, oldest first. In the spec they are results of
  `step` (R12); "one response per taken command, in order" (R90). -/
  responses : List Response
  deriving DecidableEq, Repr

/-- Why a run would stop. The spec stops nothing: "`step` is total" (R211) and an error is a response after which "the core is
ready for the next command" (R182), so this type has no constructor and no step faults. Safe: nothing is ruled out by it. -/
inductive Fault where
  deriving DecidableEq, Repr

/-- Why the model would refuse an instruction. -/
inductive Refusal where
  /-- Raised by an arm of exec for an instruction that has no meaning yet. No arm does: every instruction has its meaning. Safe. -/
  | notModelled (mnemonic : String)
  deriving DecidableEq, Repr

/-- The hash context after reset (R50). -/
def HashCtx.reset : HashCtx where
  h := Vector.replicate 8 0
  sum := Vector.replicate 8 0
  buf := Vector.replicate 32 0
  cnt := 0
  hs := .idle
  hmode := .raw
  hnv := false
  hnib := 0
  hout := Vector.replicate 64 0

/-- The CRC context after reset (R50): "reset leaves `CRC = 0`, not the all-ones start value". -/
def CrcCtx.reset : CrcCtx where
  crc := 0
  cs := .idle
  cmode := .text
  cnv := false
  cnib := 0
  cout := Vector.replicate 8 0
  coutlen := 0

/-- The machine right after reset (R50, R200), with nothing presented at the port and nothing answered. -/
def State.reset : State where
  hashCtx := HashCtx.reset
  crcCtx := CrcCtx.reset
  err := .ok
  inputs := []
  responses := []

end Sys2Proof.Machine
end

