-- ==== Sys2Proof/Machine/Operands.lean ====
section
/-! DEFINITION. How an operand is read (30_encoding.md rule R87): hex digits and their text (43_hash_stream.md rules R144, R148), the
text expansion (rule R145), and the datum that H_PUT and C_PUT take from ARG in each mode (rules R141, R163). -/

namespace Sys2Proof.Machine

/-- `hexval(c)` (R144): both letter cases are accepted. -/
def hexval (c : Half) : Option Nibble :=
  if 0x30 ≤ c ∧ c ≤ 0x39 then some ((c - 0x30).setWidth 4)
  else if 0x41 ≤ c ∧ c ≤ 0x46 then some ((c - 0x41 + 10).setWidth 4)
  else if 0x61 ≤ c ∧ c ≤ 0x66 then some ((c - 0x61 + 10).setWidth 4)
  else none

/-- `hexchar(n)` (R148): lowercase ASCII. -/
def hexchar (n : Nibble) : Byte := if n ≤ 9 then 0x30 + n.setWidth 8 else 0x61 + (n.setWidth 8 - 10)

/-- The byte of a pair of hex digits, first digit high: `(HNIB << 4) | d` (R141, R163). -/
def pairByte (high low : Nibble) : Byte := high ++ low

/-- `expand(c)` (R145): the one-, two- and three-byte patterns. -/
def expand (c : Half) : List Byte :=
  if c ≤ 0x007F then [c.extractLsb' 0 8]
  else if c ≤ 0x07FF then
    [0xC0 ||| (c.extractLsb' 6 5).setWidth 8, 0x80 ||| (c.extractLsb' 0 6).setWidth 8]
  else
    [0xE0 ||| (c.extractLsb' 12 4).setWidth 8, 0x80 ||| (c.extractLsb' 6 6).setWidth 8,
     0x80 ||| (c.extractLsb' 0 6).setWidth 8]

/-- Is the code unit a surrogate, 0xD800 to 0xDFFF (R141, R143)? -/
def isSurrogate (c : Half) : Bool := 0xD800 ≤ c && c ≤ 0xDFFF

/-- What an operand is in the mode of its session (R87). -/
inductive Datum where
  /-- The message bytes it supplies. -/
  | bytes (bs : List Byte)
  /-- The first hex digit of a pair: it only goes into the latch. -/
  | firstDigit (d : Nibble)
  /-- No legal operand of the mode: the session fails with this code. -/
  | bad (code : Code)
  deriving DecidableEq, Repr

/-- A hex digit with the latch `(nv, nib)`: the first of a pair, or the second, which completes a byte (R141, R163). -/
def hexDatum (nv : Bool) (nib : Nibble) (arg : Half) : Datum :=
  match hexval arg with
  | none => .bad .eHex
  | some d => if nv then .bytes [pairByte nib d] else .firstDigit d

/-- A byte operand: 0x0000 to 0x00FF, else E_RANGE (R142, R187). -/
def byteDatum (arg : Half) : Datum := if arg > 0x00FF then .bad .eRange else .bytes [arg.extractLsb' 0 8]

/-- A code unit: E_CODEPOINT for a surrogate, else its expansion (R141, R143). -/
def textDatum (arg : Half) : Datum := if isSurrogate arg then .bad .eCodepoint else .bytes (expand arg)

/-- The operand of H_PUT, by HMODE (R141). -/
def hashDatum (c : HashCtx) (arg : Half) : Datum :=
  match c.hmode with
  | .raw => byteDatum arg
  | .hex => hexDatum c.hnv c.hnib arg
  | .text => textDatum arg

/-- The operand of C_PUT, by CMODE (R163). -/
def crcDatum (c : CrcCtx) (arg : Half) : Datum :=
  match c.cmode with
  | .text => byteDatum arg
  | .hex => hexDatum c.cnv c.cnib arg

end Sys2Proof.Machine
end

