-- ==== Sys2Proof/Machine/Flags.lean ====
section
/-! DEFINITION. The core has no arithmetic flags or condition codes (10_state.md rule R41). Its flag-like state is HS, CS, HNV, CNV
and ERR: this file says how their values are coded in bits (rules R27, R28, R32, 60_exceptions.md rule R180), the STATUS view
of them (rule R36), how ERR takes an error's code (rules R35, R182), and the response word (30_encoding.md rule R89). -/

namespace Sys2Proof.Machine

/-- The code of a session state: 0 IDLE, 1 ACTIVE, 2 DONE, 3 FAILED (R27, R32). -/
def sessionBits : Session → BitVec 2
  | .idle => 0
  | .active => 1
  | .done => 2
  | .failed => 3

/-- The code of HMODE: 0 RAW, 1 HEX, 2 TEXT (R28). -/
def hashModeBits : HashMode → BitVec 2
  | .raw => 0
  | .hex => 1
  | .text => 2

/-- The code of CMODE: 0 TEXT, 1 HEX (R32). -/
def crcModeBits : CrcMode → BitVec 1
  | .text => 0
  | .hex => 1

/-- The number of a response code (R180). -/
def codeBits : Code → BitVec 4
  | .ok => 0
  | .eIllegal => 1
  | .eState => 2
  | .eHex => 3
  | .eCodepoint => 4
  | .eRange => 5
  | .eLength => 6
  | .eAddr => 7

/-- STATUS (R36), a view of the session registers, most significant field first; bits 31:24 and 7:5 read as 0. -/
def statusWord (h : HashCtx) (c : CrcCtx) : Word :=
  (0 : BitVec 8) ++ c.coutlen ++ c.cnib ++ BitVec.ofBool c.cnv ++ crcModeBits c.cmode ++ sessionBits c.cs ++ h.hnib
    ++ (0 : BitVec 3) ++ BitVec.ofBool h.hnv ++ hashModeBits h.hmode ++ sessionBits h.hs

/-- What ERR holds after an error of code `new`: the first error since reset is kept (R35, R182). -/
def stickyErr (old new : Code) : Code := if old = .ok then new else old

/-- The response carried as one 36-bit word: `RW[35:32] = code`, `RW[31:0] = data` (R89). -/
def responseWord (r : Response) : BitVec 36 := codeBits r.code ++ r.data

end Sys2Proof.Machine
end

