-- ==== Sys2Proof/Machine/Ops.lean ====
section
/-! DEFINITION. The operations every command is made of: the writes of a context and of ERR, the response that ends a command
(30_encoding.md rule R89), and taking an error, which is all the "trap entry" the core has (60_exceptions.md rules R182, R183,
R193). There is no return from one (rule R194): the next command simply runs. -/

namespace Sys2Proof.Machine

/-- Replace the hash context. -/
def State.withHash (s : State) (c : HashCtx) : State := { s with hashCtx := c }

/-- Replace the CRC context. -/
def State.withCrc (s : State) (c : CrcCtx) : State := { s with crcCtx := c }

/-- Replace ERR. -/
def State.withErr (s : State) (e : Code) : State := { s with err := e }

/-- Replace HS. -/
def HashCtx.withHs (c : HashCtx) (x : Session) : HashCtx := { c with hs := x }

/-- Replace the hex nibble latch HNV, HNIB (R29). -/
def HashCtx.withLatch (c : HashCtx) (nv : Bool) (nib : Nibble) : HashCtx := { c with hnv := nv, hnib := nib }

/-- Replace CS. -/
def CrcCtx.withCs (c : CrcCtx) (x : Session) : CrcCtx := { c with cs := x }

/-- Replace the hex nibble latch CNV, CNIB (R33). -/
def CrcCtx.withLatch (c : CrcCtx) (nv : Bool) (nib : Nibble) : CrcCtx := { c with cnv := nv, cnib := nib }

/-- `respond(code, data)` (R11, R89): the command at the port ends with exactly one response, and the port goes on to the
next input. The model takes the command from the port here, when its response is produced (notes/assumptions/2.md). -/
def respond (s : State) (code : Code) (data : Word) : State :=
  { s with inputs := s.inputs.tail, responses := s.responses ++ [{ code := code, data := data }] }

/-- `raise code` (R182): ERR takes the code if it was 0, the response is `(code, 0)`, and nothing else is written. -/
def raise (s : State) (code : Code) : State := respond (s.withErr (stickyErr s.err code)) code 0

/-- `session_fail_h(code)` (R183): `HS <- FAILED`, then `raise code`. -/
def sessionFailHash (s : State) (code : Code) : State := raise (s.withHash (s.hashCtx.withHs .failed)) code

/-- `session_fail_c(code)` (R183): `CS <- FAILED`, then `raise code`. -/
def sessionFailCrc (s : State) (code : Code) : State := raise (s.withCrc (s.crcCtx.withCs .failed)) code

end Sys2Proof.Machine
end

