-- ==== Sys2Proof/Machine/Bits.lean ====
section
/-! DEFINITION. The bit-field and byte-order helpers: bytes and halfwords of a word, packing four bytes, and the word-wise
exclusive or of 8-word vectors (00_scope.md rules R9 and R10, 20_memory.md rule R60). -/

namespace Sys2Proof.Machine

/-- Byte `j` of a word: `w[8j+7 : 8j]` (R9). -/
def byteOf (w : Word) (j : Nat) : Byte := w.extractLsb' (8 * j) 8

/-- `b0 | b1 << 8 | b2 << 16 | b3 << 24`, the little-endian packing of R60. -/
def packBytes (b0 b1 b2 b3 : Byte) : Word := b3 ++ b2 ++ b1 ++ b0

/-- `w[15:0]`. -/
def lowHalf (w : Word) : Half := w.extractLsb' 0 16

/-- `w[31:16]`. -/
def highHalf (w : Word) : Half := w.extractLsb' 16 16

/-- `X ^ Y` on 8-word vectors (R10). -/
def xorBlock (x y : Block) : Block := Vector.ofFn fun i : Fin 8 => x[i] ^^^ y[i]

/-- The block of a 32-byte buffer: word `i` is BUFW`i` (R45, R60). -/
def blockOfBuf (buf : Vector Byte 32) : Block :=
  Vector.ofFn fun i : Fin 8 =>
    packBytes (buf[4 * i.val]'(by omega)) (buf[4 * i.val + 1]'(by omega)) (buf[4 * i.val + 2]'(by omega))
      (buf[4 * i.val + 3]'(by omega))

/-- Halfword `q[j]` of an 8-word vector: `q[2i] = y[i][15:0]`, `q[2i+1] = y[i][31:16]` (R124). -/
def halfwordOf (y : Block) (j : Fin 16) : Half := (y[j.val / 2]'(by omega)).extractLsb' (16 * (j.val % 2)) 16

/-- The vector as a 256-bit number, word 0 least significant: `y[0] + y[1]*2^32 + ... + y[7]*2^224` (R60). -/
def blockValue (y : Block) : Nat :=
  y[0].toNat + y[1].toNat * 2 ^ 32 + y[2].toNat * 2 ^ 64 + y[3].toNat * 2 ^ 96 + y[4].toNat * 2 ^ 128
    + y[5].toNat * 2 ^ 160 + y[6].toNat * 2 ^ 192 + y[7].toNat * 2 ^ 224

end Sys2Proof.Machine
end

