-- ==== Sys2Proof/Machine/Tables.lean ====
section
/-! DEFINITION. The constant tables: SBOX (10_state.md rule R20), the expanded S-box T1 to T4 (40_sbox_expander.md rule R100) and
CRCTAB (44_crc32.md rule R160). No command writes them (rules R21, R22, R103), so they are functions, not state. -/

namespace Sys2Proof.Machine

/-- The eight rows of SBOX, the CryptoPro parameter set, as rule R20 prints them. -/
def sboxRows : Vector (Vector Nibble 16) 8 :=
  #v[#v[0xA, 0x4, 0x5, 0x6, 0x8, 0x1, 0x3, 0x7, 0xD, 0xC, 0xE, 0x0, 0x9, 0x2, 0xB, 0xF],
     #v[0x5, 0xF, 0x4, 0x0, 0x2, 0xD, 0xB, 0x9, 0x1, 0x7, 0x6, 0x3, 0xC, 0xE, 0xA, 0x8],
     #v[0x7, 0xF, 0xC, 0xE, 0x9, 0x4, 0x1, 0x0, 0x3, 0xB, 0x5, 0x2, 0x6, 0xA, 0x8, 0xD],
     #v[0x4, 0xA, 0x7, 0xC, 0x0, 0xF, 0x2, 0x8, 0xE, 0x1, 0x6, 0x5, 0xD, 0xB, 0x9, 0x3],
     #v[0x7, 0x6, 0x4, 0xB, 0x9, 0xC, 0x2, 0xA, 0x1, 0x8, 0x0, 0xE, 0xF, 0xD, 0x3, 0x5],
     #v[0x7, 0x6, 0x2, 0x4, 0xD, 0x9, 0xF, 0x0, 0xA, 0x1, 0x5, 0xB, 0x8, 0xE, 0xC, 0x3],
     #v[0xD, 0xE, 0x4, 0x1, 0x7, 0x0, 0x5, 0xA, 0x3, 0xC, 0x8, 0xF, 0x6, 0x2, 0x9, 0xB],
     #v[0x1, 0x3, 0xA, 0x9, 0x5, 0xB, 0x4, 0xF, 0x8, 0x6, 0x7, 0xE, 0xD, 0x0, 0x2, 0xC]]

/-- `SBOX[r][c]`: row `r` is the S-box of nibble `r` of the round sum, column `c` the input nibble (R20). -/
def sbox (r : Fin 8) (c : Nibble) : Nibble := sboxRows[r][c.toNat]'(c.isLt)

/-- `zext_32` of an S-box entry selected by the high nibble (`a = i[7:4]`) of a table index (R100). -/
def sboxHigh (r : Fin 8) (i : Byte) : Word := (sbox r (i.extractLsb' 4 4)).setWidth 32

/-- `zext_32` of an S-box entry selected by the low nibble (`b = i[3:0]`) of a table index (R100). -/
def sboxLow (r : Fin 8) (i : Byte) : Word := (sbox r (i.extractLsb' 0 4)).setWidth 32

/-- `T1[i]` (R100). -/
def tableT1 (i : Byte) : Word := (sboxHigh 1 i <<< 15) ||| (sboxLow 0 i <<< 11)

/-- `T2[i]` (R100). -/
def tableT2 (i : Byte) : Word := (sboxHigh 3 i <<< 23) ||| (sboxLow 2 i <<< 19)

/-- `T3[i]` (R100): the one table with a rotation. -/
def tableT3 (i : Byte) : Word := ((sboxHigh 5 i).rotateLeft 31) ||| (sboxLow 4 i <<< 27)

/-- `T4[i]` (R100). -/
def tableT4 (i : Byte) : Word := (sboxHigh 7 i <<< 7) ||| (sboxLow 6 i <<< 3)

/-- One of the eight conditional shift-xor steps of rule R160, polynomial 0xEDB88320. -/
def crcTableStep (c : Word) : Word := if c.getLsbD 0 then 0xEDB88320 ^^^ (c >>> 1) else c >>> 1

/-- `CRCTAB[n]` (R160): eight steps from `zext_32(n)`. -/
def crcTable (n : Byte) : Word := Nat.iterate crcTableStep 8 (n.setWidth 32)

end Sys2Proof.Machine
end

