-- ==== Sys2Proof/Machine/CrcStream.lean ====
section
/-! DEFINITION. The CRC-32 accumulator and its two output formats (44_crc32.md rules R161, R165, R166), and what the CRC commands
do to the CRC context. The asymmetry of the formats is normative (rule R167). -/

namespace Sys2Proof.Machine

/-- `crcstep(crc, x)` (R161). -/
def crcstep (crc : Word) (x : Byte) : Word := (crc >>> 8) ^^^ crcTable (byteOf (crc ^^^ x.setWidth 32) 0)

/-- The CRC text and its length (R34). -/
structure CrcText where
  cout : Vector Byte 8
  coutlen : BitVec 4
  deriving DecidableEq, Repr

/-- The hex digit of weight `16^k` of a word: `v[4k+3 : 4k]`. -/
def hexDigitOf (v : Word) (k : Nat) : Nibble := v.extractLsb' (4 * k) 4

/-- The number of significant hex digits: 1 for 0, else the least `n` in 1..8 with `v < 16^n` (R165). -/
def significantDigits (v : Word) : Nat := ((List.range' 1 8).find? fun n => v.toNat < 16 ^ n).getD 8

/-- `render_var(v)` (R165): no zero padding. -/
def renderVar (v : Word) : CrcText :=
  let n := significantDigits v
  { cout := Vector.ofFn fun j : Fin 8 => if j.val < n then hexchar (hexDigitOf v (n - 1 - j.val)) else 0
    coutlen := BitVec.ofNat 4 n }

/-- `render_pad8(v)` (R166): exactly 8 digits. -/
def renderPad8 (v : Word) : CrcText :=
  { cout := Vector.ofFn fun j : Fin 8 => hexchar (hexDigitOf v (7 - j.val))
    coutlen := 8 }

/-- The rendering that CMODE selects (R164). -/
def renderCrc : CrcMode → Word → CrcText
  | .text, v => renderVar v
  | .hex, v => renderPad8 v

/-- The CRC context that C_INIT leaves (R162): the accumulator all ones, everything else zero, the session ACTIVE. -/
def CrcCtx.opened (mode : CrcMode) : CrcCtx :=
  { CrcCtx.reset with crc := 0xFFFFFFFF, cmode := mode, cs := .active }

/-- `for x in bytes: CRC <- crcstep(CRC, x)` (R163; C_PUT supplies one byte at a time). -/
def CrcCtx.accumulate (c : CrcCtx) (bs : List Byte) : CrcCtx := { c with crc := bs.foldl crcstep c.crc }

/-- The CRC context that a successful C_FINAL leaves (R164). -/
def CrcCtx.finished (c : CrcCtx) : CrcCtx :=
  let v := c.crc ^^^ 0xFFFFFFFF
  let t := renderCrc c.cmode v
  { c with crc := v, cout := t.cout, coutlen := t.coutlen, cs := .done }

end Sys2Proof.Machine
end

