-- ==== Sys2Proof/Machine/Crc.lean ====
section
/-! DEFINITION. The meanings of the CRC commands C_INIT.TEXT, C_INIT.HEX, C_PUT and C_FINAL (44_crc32.md rules R162, R163,
R164). -/

namespace Sys2Proof.Machine

/-- `C_INIT(mode)` (R162): valid in every CS state; writes all of the CRC context and nothing else. -/
def crcInit (mode : CrcMode) (s : State) : Host.Outcome State Fault Refusal :=
  .next (respond (s.withCrc (CrcCtx.opened mode)) .ok 0)

/-- C_INIT.TEXT (R162). -/
def execCInitText (s : State) : Host.Outcome State Fault Refusal := crcInit .text s

/-- C_INIT.HEX (R162). -/
def execCInitHex (s : State) : Host.Outcome State Fault Refusal := crcInit .hex s

/-- The CRC context with the latch cleared if the mode is HEX (R163). -/
def CrcCtx.latchUsed (c : CrcCtx) : CrcCtx := if c.cmode = .hex then c.withLatch false 0 else c

/-- C_PUT (R163): E_STATE first, then the operand check of the mode; there is no length limit. -/
def execCPut (arg : Half) (s : State) : Host.Outcome State Fault Refusal :=
  if s.crcCtx.cs ≠ .active then .next (raise s .eState)
  else
    match crcDatum s.crcCtx arg with
    | .bad code => .next (sessionFailCrc s code)
    | .firstDigit d => .next (respond (s.withCrc (s.crcCtx.withLatch true d)) .ok 0)
    | .bytes bs => .next (respond (s.withCrc (s.crcCtx.latchUsed.accumulate bs)) .ok 0)

/-- C_FINAL (R164): E_STATE, then E_HEX for a digit left unpaired in HEX mode, else the result, which is also the response's
datum. -/
def execCFinal (s : State) : Host.Outcome State Fault Refusal :=
  if s.crcCtx.cs ≠ .active then .next (raise s .eState)
  else if s.crcCtx.cmode = .hex ∧ s.crcCtx.cnv = true then .next (sessionFailCrc s .eHex)
  else .next (respond (s.withCrc s.crcCtx.finished) .ok s.crcCtx.finished.crc)

end Sys2Proof.Machine
end

