-- ==== Sys2Proof/Machine/Cipher.lean ====
section
/-! DEFINITION. The GOST 28147-89 round engine and its key schedule (41_cipher_engine.md rules R110 to R119). Internal: no command
gives it a key or a block, and none returns its output (rule R117); it is total (rule R118). -/

namespace Sys2Proof.Machine

/-- The round function `f(t)` (R110): byte 0 through T1, byte 1 through T2, byte 2 through T3, byte 3 through T4. -/
def roundF (t : Word) : Word :=
  tableT1 (byteOf t 0) ^^^ tableT2 (byteOf t 1) ^^^ tableT3 (byteOf t 2) ^^^ tableT4 (byteOf t 3)

/-- The key order `ko(j)` (R113): keys 0 to 7 three times, then 7 down to 0 (90_conflicts.md C4). -/
def keyOrder (j : Nat) : Fin 8 := Fin.ofNat 8 (if j < 24 then j % 8 else 31 - j)

/-- The two 32-bit halves of the engine (R111). -/
structure Halves where
  left : Word
  right : Word
  deriving DecidableEq, Repr

/-- One pair of sub-rounds `p` of R111: the halves swap roles between the two, and `+32` drops its carry (R116). -/
def roundPair (keys : Block) (x : Halves) (p : Nat) : Halves :=
  let l := x.left ^^^ roundF (keys[keyOrder (2 * p)] + x.right)
  let r := x.right ^^^ roundF (keys[keyOrder (2 * p + 1)] + l)
  { left := l, right := r }

/-- `encrypt_block(left, right, keys)` (R111): sixteen pairs of sub-rounds, then the closing exchange. -/
def encryptBlock (left right : Word) (keys : Block) : Halves :=
  let x := (List.range 16).foldl (roundPair keys) { left := left, right := right }
  { left := x.right, right := x.left }

/-- The registers `(n1, n2)` of the cipher's own form (R112). -/
structure Registers where
  n1 : Word
  n2 : Word
  deriving DecidableEq, Repr

/-- One of the rounds 0 to 30 of R112. -/
def registerRound (keys : Block) (x : Registers) (j : Nat) : Registers :=
  { n1 := x.n2 ^^^ roundF (x.n1 + keys[keyOrder j]), n2 := x.n1 }

/-- `enc(n1, n2, keys)` (R112): rounds 0 to 30 with the exchange, round 31 without. -/
def encRegisters (n1 n2 : Word) (keys : Block) : Registers :=
  let x := (List.range 31).foldl (registerRound keys) { n1 := n1, n2 := n2 }
  { x with n2 := x.n2 ^^^ roundF (x.n1 + keys[keyOrder 31]) }

/-- The P-transformation (R114): byte `b` of key word `k` is byte `k mod 4` of working word `2b + (k div 4)`
(90_conflicts.md C2). -/
def pTransform (w : Block) : Block :=
  Vector.ofFn fun k : Fin 8 =>
    packBytes (byteOf (w[k.val / 4]'(by omega)) (k.val % 4)) (byteOf (w[2 + k.val / 4]'(by omega)) (k.val % 4))
      (byteOf (w[4 + k.val / 4]'(by omega)) (k.val % 4)) (byteOf (w[6 + k.val / 4]'(by omega)) (k.val % 4))

end Sys2Proof.Machine
end

