-- ==== Sys2Proof/Machine/Compression.lean ====
section
/-! DEFINITION. The GOST R 34.11-94 compression function (42_compression.md rules R120 to R131). Internal, total and pure
(rules R120, R131). -/

namespace Sys2Proof.Machine

/-- The A-transformation (R121): down by two words, the top two receive the exclusive or of the two bottom quarters
(90_conflicts.md C5). -/
def aTransform (y : Block) : Block := #v[y[2], y[3], y[4], y[5], y[6], y[7], y[0] ^^^ y[2], y[1] ^^^ y[3]]

/-- The constant C3 (R123). -/
def c3 : Block :=
  #v[0xFF00FF00, 0xFF00FF00, 0x00FF00FF, 0x00FF00FF, 0x00FFFF00, 0xFF0000FF, 0x000000FF, 0xFF00FFFF]

/-- The feedback halfword of one LFSR round (R124): old halfwords 0, 1, 2, 3, 12 and 15. -/
def psiFeedback (y : Block) : Half :=
  lowHalf y[0] ^^^ highHalf y[0] ^^^ lowHalf y[1] ^^^ highHalf y[1] ^^^ lowHalf y[6] ^^^ highHalf y[7]

/-- One LFSR round (R124), in the form "directly on words". -/
def psi (y : Block) : Block :=
  #v[lowHalf y[1] ++ highHalf y[0], lowHalf y[2] ++ highHalf y[1], lowHalf y[3] ++ highHalf y[2],
     lowHalf y[4] ++ highHalf y[3], lowHalf y[5] ++ highHalf y[4], lowHalf y[6] ++ highHalf y[5],
     lowHalf y[7] ++ highHalf y[6], psiFeedback y ++ highHalf y[7]]

/-- `psi^n(y)` (R125). -/
def psiPow (n : Nat) (y : Block) : Block := Nat.iterate psi n y

/-- The four key sets K0, K2, K4, K6 (R126): `u` takes A once and `v` twice between iterations, and C3 enters `u` on the
update that prepares the third set. -/
def keySets (h m : Block) : Vector Block 4 :=
  let u2 := aTransform h
  let v2 := aTransform (aTransform m)
  let u4 := xorBlock (aTransform u2) c3
  let v4 := aTransform (aTransform v2)
  let u6 := aTransform u4
  let v6 := aTransform (aTransform v4)
  #v[pTransform (xorBlock h m), pTransform (xorBlock u2 v2), pTransform (xorBlock u4 v4), pTransform (xorBlock u6 v6)]

/-- The vector `s` of the four encryptions (R127): `h[i]` goes in and comes out as `right`, `h[i+1]` as `left`. -/
def encryptedHash (h m : Block) : Block :=
  let k := keySets h m
  let e0 := encryptBlock h[1] h[0] k[0]
  let e2 := encryptBlock h[3] h[2] k[1]
  let e4 := encryptBlock h[5] h[4] k[2]
  let e6 := encryptBlock h[7] h[6] k[3]
  #v[e0.right, e0.left, e2.right, e2.left, e4.right, e4.left, e6.right, e6.left]

/-- `compress(h, m) = psi^61( h ^ psi( m ^ psi^12(s) ) )` (R128 to R130, 90_conflicts.md C1). -/
def compress (h m : Block) : Block :=
  psiPow 61 (xorBlock h (psi (xorBlock m (psiPow 12 (encryptedHash h m)))))

end Sys2Proof.Machine
end

