-- ==== Sys2Proof/Machine/HashStream.lean ====
section
/-! DEFINITION. The streaming hash buffer, the 256-bit sum accumulator, the length block and the digest text
(43_hash_stream.md rules R138, R139, R147, R148), and what the three hash commands do to the hash context. -/

namespace Sys2Proof.Machine

/-- The carry into word `i` of the add-with-carry chain (R138): `c <- t[32]` of the word before. -/
def carryInto (x y : Block) : Nat → Nat
  | 0 => 0
  | i + 1 => (((x[i]?).getD 0).toNat + ((y[i]?).getD 0).toNat + carryInto x y i) / 2 ^ 32

/-- `add256(sum, block)` (R138): word `i` is `t[31:0]` with `t = sum[i] + block[i] + c`; the carry out of word 7 is dropped. -/
def add256 (x y : Block) : Block :=
  Vector.ofFn fun i : Fin 8 => BitVec.ofNat 32 (x[i].toNat + y[i].toNat + carryInto x y i.val)

/-- Take a block into the context: the sum is updated and the block compressed into H (R139, R146). -/
def HashCtx.processBlock (c : HashCtx) (block : Block) : HashCtx :=
  { c with sum := add256 c.sum block, h := compress c.h block }

/-- `BUF[CNT mod 32] <- x; CNT <- CNT + 1` (R139). -/
def HashCtx.pushByte (c : HashCtx) (x : Byte) : HashCtx :=
  { c with buf := c.buf.set (c.cnt.toNat % 32) x (Nat.mod_lt _ (by decide)), cnt := c.cnt + 1 }

/-- `absorb(x)` (R139): the byte that fills the buffer also consumes the block and zeroes the buffer. -/
def absorb (c : HashCtx) (x : Byte) : HashCtx :=
  let c1 := c.pushByte x
  if c1.cnt.toNat % 32 = 0 then
    { c1.processBlock (blockOfBuf c1.buf) with buf := Vector.replicate 32 0 }
  else c1

/-- `for x in bytes, in order: absorb(x)` (R141). -/
def absorbAll (c : HashCtx) (bs : List Byte) : HashCtx := bs.foldl absorb c

/-- `lenblock(CNT)` (R147): the bit length `CNT * 8` as two words, then zeros. -/
def lenblock (cnt : BitVec 61) : Block :=
  #v[cnt.extractLsb' 0 29 ++ (0 : BitVec 3), cnt.extractLsb' 29 32, 0, 0, 0, 0, 0, 0]

/-- Digest byte `k`: `(H[k div 4] >> (8 * (k mod 4))) & 0xFF` (R61). -/
def digestByte (h : Block) (k : Fin 32) : Byte := byteOf (h[k.val / 4]'(by omega)) (k.val % 4)

/-- `render_digest(H)` (R148): each digest byte as two characters, high nibble first. -/
def renderDigest (h : Block) : Vector Byte 64 :=
  Vector.ofFn fun n : Fin 64 =>
    let x := digestByte h ⟨n.val / 2, by omega⟩
    hexchar (if n.val % 2 = 0 then x.extractLsb' 4 4 else x.extractLsb' 0 4)

/-- The hash context that H_INIT leaves (R140): everything zero, the mode latched, the session ACTIVE. -/
def HashCtx.opened (mode : HashMode) : HashCtx := { HashCtx.reset with hmode := mode, hs := .active }

/-- The partial block of H_FINAL, if one remains (R146): BUF as it stands is already zero-padded (R25). -/
def HashCtx.processPartial (c : HashCtx) : HashCtx :=
  if c.cnt.toNat % 32 ≠ 0 then c.processBlock (blockOfBuf c.buf) else c

/-- The hash context that a successful H_FINAL leaves (R146): the partial block, the length block (not summed), the sum as
a block, then the digest text. -/
def HashCtx.finished (c : HashCtx) : HashCtx :=
  let c1 := c.processPartial
  let digest := compress (compress c1.h (lenblock c1.cnt)) c1.sum
  { c1 with h := digest, hout := renderDigest digest, hs := .done }

end Sys2Proof.Machine
end

