-- ==== Sys2Proof/Machine/Hash.lean ====
section
/-! DEFINITION. The meanings of the hash commands H_INIT.RAW, H_INIT.HEX, H_INIT.TEXT, H_PUT and H_FINAL
(43_hash_stream.md rules R140, R141, R146). -/

namespace Sys2Proof.Machine

/-- `H_INIT(mode)` (R140): valid in every session state; writes all of the hash context and nothing else. -/
def hashInit (mode : HashMode) (s : State) : Host.Outcome State Fault Refusal :=
  .next (respond (s.withHash (HashCtx.opened mode)) .ok 0)

/-- H_INIT.RAW (R140). -/
def execHInitRaw (s : State) : Host.Outcome State Fault Refusal := hashInit .raw s

/-- H_INIT.HEX (R140). -/
def execHInitHex (s : State) : Host.Outcome State Fault Refusal := hashInit .hex s

/-- H_INIT.TEXT (R140). -/
def execHInitText (s : State) : Host.Outcome State Fault Refusal := hashInit .text s

/-- The hash context with the latch cleared if the mode is HEX (R141: "if HMODE = HEX:  HNV <- 0;  HNIB <- 0"). -/
def HashCtx.latchUsed (c : HashCtx) : HashCtx := if c.hmode = .hex then c.withLatch false 0 else c

/-- H_PUT (R141): E_STATE first, then the operand check of the mode, then E_LENGTH; a multi-byte operand is absorbed whole or
not at all. -/
def execHPut (arg : Half) (s : State) : Host.Outcome State Fault Refusal :=
  if s.hashCtx.hs ≠ .active then .next (raise s .eState)
  else
    match hashDatum s.hashCtx arg with
    | .bad code => .next (sessionFailHash s code)
    | .firstDigit d => .next (respond (s.withHash (s.hashCtx.withLatch true d)) .ok 0)
    | .bytes bs =>
      if s.hashCtx.cnt.toNat + bs.length > Config.maxMessageBytes then .next (sessionFailHash s .eLength)
      else .next (respond (s.withHash (absorbAll s.hashCtx.latchUsed bs)) .ok 0)

/-- H_FINAL (R146): E_STATE, then E_HEX for a digit left unpaired in HEX mode, else the digest. -/
def execHFinal (s : State) : Host.Outcome State Fault Refusal :=
  if s.hashCtx.hs ≠ .active then .next (raise s .eState)
  else if s.hashCtx.hmode = .hex ∧ s.hashCtx.hnv = true then .next (sessionFailHash s .eHex)
  else .next (respond (s.withHash s.hashCtx.finished) .ok 0)

end Sys2Proof.Machine
end

