-- ==== Sys2Proof/Machine/Read.lean ====
section
/-! DEFINITION. The index space (10_state.md rules R36 and R45, 20_memory.md rules R63 to R69) and the meaning of RD
(45_register_read.md rule R175). -/

namespace Sys2Proof.Machine

/-- The entries that the index space maps (R45). -/
inductive Entry where
  | status
  | err
  | h (i : Fin 8)
  | sum (i : Fin 8)
  | bufw (i : Fin 8)
  | cntLo
  | cntHi
  | crc
  | hout (j : Fin 64)
  | cout (j : Fin 8)
  | t1 (i : Byte)
  | t2 (i : Byte)
  | t3 (i : Byte)
  | t4 (i : Byte)
  | crctab (i : Byte)
  | sbox (r : Fin 8) (c : Nibble)
  deriving DecidableEq, Repr

/-- The part of the map below 0x0100, by the number of an index: the state (R45). -/
def stateEntryAt (n : Nat) : Option Entry :=
  if n = 0x0000 then some .status
  else if n = 0x0001 then some .err
  else if n < 0x0010 then none
  else if n < 0x0018 then some (.h (Fin.ofNat 8 (n - 0x0010)))
  else if n < 0x0020 then some (.sum (Fin.ofNat 8 (n - 0x0018)))
  else if n < 0x0028 then some (.bufw (Fin.ofNat 8 (n - 0x0020)))
  else if n = 0x0028 then some .cntLo
  else if n = 0x0029 then some .cntHi
  else if n = 0x0030 then some .crc
  else if n < 0x0040 then none
  else if n < 0x0080 then some (.hout (Fin.ofNat 64 (n - 0x0040)))
  else if n < 0x0088 then some (.cout (Fin.ofNat 8 (n - 0x0080)))
  else none

/-- The part of the map at and above 0x0100: the constant tables (R45). -/
def tableEntryAt (n : Nat) : Option Entry :=
  if n < 0x0200 then some (.t1 (BitVec.ofNat 8 (n - 0x0100)))
  else if n < 0x0300 then some (.t2 (BitVec.ofNat 8 (n - 0x0200)))
  else if n < 0x0400 then some (.t3 (BitVec.ofNat 8 (n - 0x0300)))
  else if n < 0x0500 then some (.t4 (BitVec.ofNat 8 (n - 0x0400)))
  else if n < 0x0600 then some (.crctab (BitVec.ofNat 8 (n - 0x0500)))
  else if n < 0x0680 then some (.sbox (Fin.ofNat 8 ((n - 0x0600) / 16)) (BitVec.ofNat 4 ((n - 0x0600) % 16)))
  else none

/-- The entry at an index, or none where the map of R45 has none. -/
def entryAt (index : Half) : Option Entry :=
  if index.toNat < 0x0100 then stateEntryAt index.toNat else tableEntryAt index.toNat

/-- The 32-bit value of an entry (R36, R45): narrower state is zero-extended. -/
def readEntry (s : State) : Entry → Word
  | .status => statusWord s.hashCtx s.crcCtx
  | .err => (codeBits s.err).setWidth 32
  | .h i => s.hashCtx.h[i]
  | .sum i => s.hashCtx.sum[i]
  | .bufw i => (blockOfBuf s.hashCtx.buf)[i]
  | .cntLo => s.hashCtx.cnt.extractLsb' 0 32
  | .cntHi => (s.hashCtx.cnt.extractLsb' 32 29).setWidth 32
  | .crc => s.crcCtx.crc
  | .hout j => s.hashCtx.hout[j].setWidth 32
  | .cout j => s.crcCtx.cout[j].setWidth 32
  | .t1 i => tableT1 i
  | .t2 i => tableT2 i
  | .t3 i => tableT3 i
  | .t4 i => tableT4 i
  | .crctab i => crcTable i
  | .sbox r c => (sbox r c).setWidth 32

/-- `MemRead(idx, 1)` (R11): the one entry at an index, or none where nothing is mapped. -/
def memRead (s : State) (index : Half) : Option Word := (entryAt index).map (readEntry s)

/-- RD (R175): the entry's value, or E_ADDR; valid in every session state, and no state is written on success. -/
def execRd (index : Half) (s : State) : Host.Outcome State Fault Refusal :=
  match memRead s index with
  | some v => .next (respond s .ok v)
  | none => .next (raise s .eAddr)

end Sys2Proof.Machine
end

