-- ==== Sys2Proof/Machine/Dispatch.lean ====
section
/-! DEFINITION. One arm per row of the opcode table (30_encoding.md rule R83). -/

namespace Sys2Proof.Machine

def exec (i : Instr) (s : State) : Host.Outcome State Fault Refusal :=
  match i with
  | .hInitRaw => Sys2Proof.Machine.execHInitRaw s
  | .hInitHex => Sys2Proof.Machine.execHInitHex s
  | .hInitText => Sys2Proof.Machine.execHInitText s
  | .hPut arg => Sys2Proof.Machine.execHPut arg s
  | .hFinal => Sys2Proof.Machine.execHFinal s
  | .cInitText => Sys2Proof.Machine.execCInitText s
  | .cInitHex => Sys2Proof.Machine.execCInitHex s
  | .cPut arg => Sys2Proof.Machine.execCPut arg s
  | .cFinal => Sys2Proof.Machine.execCFinal s
  | .rd index => Sys2Proof.Machine.execRd index s

end Sys2Proof.Machine
end

