-- ==== Sys2Proof/Machine/Port.lean ====
section
/-! DEFINITION. What happens at the port outside the ten commands: an illegal word (30_encoding.md rule R85, 60_exceptions.md
rule R181), the `rst` input (70_reset_and_hazards.md rule R200), and no input at all. -/

namespace Sys2Proof.Machine

/-- An illegal word raises E_ILLEGAL and changes no state but ERR, whichever clause of R85 it falls under (R85, R181). -/
def illegalCommand (s : State) : State := raise s .eIllegal

/-- The host asserts and releases `rst` (R200): every element takes its reset value; no response is produced for it, and the
responses already given stay given. -/
def resetInput (s : State) : State := { State.reset with inputs := s.inputs.tail, responses := s.responses }

/-- Nothing is presented: the core changes nothing while it waits (R40, R70, R206; notes/assumptions/3.md). -/
def portIdle (s : State) : State := s

/-- Put a command word first in what the host presents. -/
def presentFirst (s : State) (cw : Word) : State := { s with inputs := .command cw :: s.inputs }

/-- Add command words after what the host is already to present (R206: a run is a list of command words). -/
def present (s : State) (cws : List Word) : State := { s with inputs := s.inputs ++ cws.map .command }

end Sys2Proof.Machine
end

