-- ==== Sys2Proof/Machine/Step.lean ====
section
/-! DEFINITION. One step of the machine: the next input of the port, executed to completion (00_scope.md rule R12,
20_memory.md rule R70). -/

namespace Sys2Proof.Machine

/-- One step: a command word is decoded and executed (an illegal one answers E_ILLEGAL), `rst` resets, and with nothing presented
the core waits. -/
def step (s : State) : Host.Outcome State Fault Refusal :=
  match s.inputs with
  | [] => .next (portIdle s)
  | .reset :: _ => .next (resetInput s)
  | .command cw :: _ =>
    match decode cw with
    | .command i => exec i s
    | .illegal _ => .next (illegalCommand s)

/-- The state in which the command word of the `nbits` low bits of `w` is presented next. The core fetches nothing (R40): where a
step takes its next instruction from is the command port, so the word is put first there and nothing else changes. -/
def State.withFetchWord (s : State) (nbits w : Nat) : State := presentFirst s (BitVec.ofNat 32 (w % 2 ^ nbits))

end Sys2Proof.Machine
end

