-- ==== Sys2Proof/Machine/Sequences.lean ====
section
/-! DEFINITION. Command sequences: executing a list of commands in the order of presentation (20_memory.md rule R70) and the fixed
expansions of rule R92 (30_encoding.md), which carry the four operations the document exposes (00_scope.md rule R5). -/

namespace Sys2Proof.Machine

/-- The commands of a list, executed one at a time in order (R70); a stop ends the list. -/
def runInstrs : List Instr → State → Host.Outcome State Fault Refusal
  | [], s => .next s
  | i :: is, s =>
    match exec i s with
    | .next t => runInstrs is t
    | .fault r => .fault r
    | .refused r => .refused r

/-- One H_PUT for each datum, in order (R92). -/
def hashPuts (args : List Half) : List Instr := args.map .hPut

/-- One C_PUT for each datum, in order (R92). -/
def crcPuts (args : List Half) : List Instr := args.map .cPut

/-- `HASH_TEXT s` (R92): the document's `hash(text)`. -/
def hashTextSeq (units : List Half) : List Instr := .hInitText :: hashPuts units ++ [.hFinal]

/-- `HASH_HEX s` (R92): the document's `hash_hex(hex)`. -/
def hashHexSeq (chars : List Half) : List Instr := .hInitHex :: hashPuts chars ++ [.hFinal]

/-- `HASH_RAW b` (R92): the document's `init`, `update(b)`, `final`. -/
def hashRawSeq (bytes : List Byte) : List Instr :=
  .hInitRaw :: hashPuts (bytes.map fun x => x.setWidth 16) ++ [.hFinal]

/-- `CRC32_CALC s` (R92): the document's `crc32_calc(text)`. -/
def crc32CalcSeq (chars : List Half) : List Instr := .cInitText :: crcPuts chars ++ [.cFinal]

/-- `CRC32_CALC_HEX s` (R92): the document's `crc32_calc_hex(hex)`. -/
def crc32CalcHexSeq (chars : List Half) : List Instr := .cInitHex :: crcPuts chars ++ [.cFinal]

/-- `RD_DIGEST` (R92): the 64 characters of HOUT. -/
def rdDigestSeq : List Instr := (List.range 64).map fun j => .rd (BitVec.ofNat 16 (0x0040 + j))

/-- `RD_CRCTEXT` (R92): STATUS, for COUTLEN, and the 8 characters of COUT. -/
def rdCrcTextSeq : List Instr := .rd 0x0000 :: (List.range 8).map fun j => .rd (BitVec.ofNat 16 (0x0080 + j))

/-- `to_hex(b)` in lowercase, high digit first (R151, R168): two characters for each byte. -/
def toHex (bytes : List Byte) : List Half :=
  bytes.flatMap fun x => [(hexchar (x.extractLsb' 4 4)).setWidth 16, (hexchar (x.extractLsb' 0 4)).setWidth 16]

end Sys2Proof.Machine
end

