-- ==== Sys2Proof/Safety.lean ====
section
/-! DEFINITION. The terms in which statements about the machine are made: what a command answers, what a run without an error is,
the invariant between commands, the groups of commands, the mapped indices, and the digest of a whole message. -/

namespace Sys2Proof.Machine

/-- From `s` to `t` exactly one response was produced, `(code, data)` (R89, R90). -/
def Answers (s t : State) (code : Code) (data : Word) : Prop :=
  t.responses = s.responses ++ [{ code := code, data := data }]

/-- "A claim that no error occurred since reset is the claim `ERR = 0`" (R194). -/
def NoErrorSinceReset (s : State) : Prop := s.err = .ok

/-- The hash group, OPC 0x1x (R83). -/
def isHashCommand : Instr → Bool
  | .hInitRaw | .hInitHex | .hInitText | .hPut _ | .hFinal => true
  | .cInitText | .cInitHex | .cPut _ | .cFinal | .rd _ => false

/-- The CRC group, OPC 0x2x (R83). -/
def isCrcCommand : Instr → Bool
  | .cInitText | .cInitHex | .cPut _ | .cFinal => true
  | .hInitRaw | .hInitHex | .hInitText | .hPut _ | .hFinal | .rd _ => false

/-- The unmapped ranges as rule R45 lists them. -/
def IsUnmappedIndex (index : Half) : Prop :=
  (0x0002 ≤ index ∧ index ≤ 0x000F) ∨ (0x002A ≤ index ∧ index ≤ 0x002F) ∨ (0x0031 ≤ index ∧ index ≤ 0x003F) ∨
    (0x0088 ≤ index ∧ index ≤ 0x00FF) ∨ 0x0680 ≤ index

/-- What holds of the hash context between commands. -/
structure HashCtx.Inv (c : HashCtx) : Prop where
  /-- "`BUF[j] = 0` for every `j >= CNT mod 32`" (R25). -/
  buf_zero_beyond_fill : ∀ j : Fin 32, c.cnt.toNat % 32 ≤ j.val → c.buf[j] = 0
  /-- "`HNV = 0` implies `HNIB = 0`" (R29). -/
  latch_clear : c.hnv = false → c.hnib = 0
  /-- The latch is "used only in HEX mode" (R29). -/
  latch_only_in_hex : c.hnv = true → c.hmode = .hex
  /-- After a successful H_FINAL the latch "is 0" (R146). -/
  latch_clear_when_done : c.hs = .done → c.hnv = false
  /-- HOUT is zero "until a successful" H_FINAL (R30, U14). -/
  hout_zero_unless_done : c.hs ≠ .done → c.hout = Vector.replicate 64 0
  /-- After a successful H_FINAL HOUT "holds the 64 ASCII characters of the digest", and the digest is in H (R27, R30). -/
  hout_is_digest_text : c.hs = .done → c.hout = renderDigest c.h
  /-- IDLE is "no session since reset" (R27). -/
  idle_is_reset : c.hs = .idle → c = HashCtx.reset

/-- What holds of the CRC context between commands. -/
structure CrcCtx.Inv (c : CrcCtx) : Prop where
  /-- COUTLEN is "0 to 8" (R34). -/
  coutlen_le : c.coutlen.toNat ≤ 8
  /-- "`COUT[j] = 0x00` for `j >= COUTLEN`" (R34). -/
  cout_zero_beyond_len : ∀ j : Fin 8, c.coutlen.toNat ≤ j.val → c.cout[j] = 0
  /-- "`CNV = 0` implies `CNIB = 0`" (R33). -/
  latch_clear : c.cnv = false → c.cnib = 0
  /-- The latch is "used only in CRC HEX mode" (R33). -/
  latch_only_in_hex : c.cnv = true → c.cmode = .hex
  /-- A successful C_FINAL leaves no digit unpaired (R164). -/
  latch_clear_when_done : c.cs = .done → c.cnv = false
  /-- COUT is empty until a successful C_FINAL (R34). -/
  cout_empty_unless_done : c.cs ≠ .done → c.coutlen = 0
  /-- After a successful C_FINAL COUT and COUTLEN are the text of CRC in the format of the mode (R34, R164). -/
  cout_is_text : c.cs = .done → c.cout = (renderCrc c.cmode c.crc).cout ∧ c.coutlen = (renderCrc c.cmode c.crc).coutlen
  /-- IDLE is "no session since reset" (R32). -/
  idle_is_reset : c.cs = .idle → c = CrcCtx.reset

/-- The invariant of the machine between commands. -/
structure State.Inv (s : State) : Prop where
  hash : s.hashCtx.Inv
  crc : s.crcCtx.Inv
  /-- A failed session leaves a record: ERR is not 0 (R35, R183, R194). -/
  failed_is_recorded : s.hashCtx.hs = .failed ∨ s.crcCtx.cs = .failed → s.err ≠ .ok

/-- Block `i` of a message, the last one zero-padded (R60, R146). -/
def messageBlock (bytes : List Byte) (i : Nat) : Block :=
  blockOfBuf (Vector.ofFn fun j : Fin 32 => bytes.getD (32 * i + j.val) 0)

/-- The running hash and the running sum after the first `n` blocks of a message (R139). -/
def hashAndSum (bytes : List Byte) (n : Nat) : Block × Block :=
  (List.range n).foldl
    (fun x i => (compress x.1 (messageBlock bytes i), add256 x.2 (messageBlock bytes i)))
    (Vector.replicate 8 0, Vector.replicate 8 0)

/-- The digest of a whole message, block by block, without a buffer or a counter: every block, the last zero-padded, is
compressed and summed, then the length block and the sum are compressed (R139, R146, R147). -/
def messageDigest (bytes : List Byte) : Block :=
  let x := hashAndSum bytes ((bytes.length + 31) / 32)
  compress (compress x.1 (lenblock (BitVec.ofNat 61 bytes.length))) x.2

end Sys2Proof.Machine
end

