-- ==== Sys2Proof/Certificates/Slice0/Obligations.lean ====
section
/-! DEFINITION. The statements about the model. Each docstring names the rule of spec/ it formalises. "Frame" clauses say what is
left unchanged; the core has no byte-addressed memory, so the frame of a command is over the two contexts and ERR, which are the
whole of the spec's state. What a command does to the model's own fields (the port's two lists) is said once for all of them, by
ExecIgnoresPortButTakesCommand. -/

open Sys2Proof Sys2Proof.Machine

/-! ## Encoding -/

/-- Decode and encode agree: no bit of a command is dropped (R80, R83, R84). -/
def Obligations.DecodeInvertsEncode : Prop :=
  ∀ i : Instr, decode (encode i) = .command i

/-- The other direction: every word has at most one meaning, and a command has exactly one word (R80, R83, R86). -/
def Obligations.EncodeInvertsDecode : Prop :=
  ∀ (cw : Word) (i : Instr), decode cw = .command i → encode i = cw

/-- R83: a word selects the row with `CW & mask = match`, with the masks and matches of the table; the operand is `CW[15:0]`. -/
def Obligations.DecodeSelectsTableRow : Prop :=
  ∀ cw : Word,
    (decode cw = .command .hInitRaw ↔ cw &&& 0xFFFFFFFF = 0x10000000) ∧
    (decode cw = .command .hInitHex ↔ cw &&& 0xFFFFFFFF = 0x10000001) ∧
    (decode cw = .command .hInitText ↔ cw &&& 0xFFFFFFFF = 0x10000002) ∧
    (∀ arg, decode cw = .command (.hPut arg) ↔ cw &&& 0xFFFF0000 = 0x11000000 ∧ arg = cw.extractLsb' 0 16) ∧
    (decode cw = .command .hFinal ↔ cw &&& 0xFFFFFFFF = 0x12000000) ∧
    (decode cw = .command .cInitText ↔ cw &&& 0xFFFFFFFF = 0x20000000) ∧
    (decode cw = .command .cInitHex ↔ cw &&& 0xFFFFFFFF = 0x20000001) ∧
    (∀ arg, decode cw = .command (.cPut arg) ↔ cw &&& 0xFFFF0000 = 0x21000000 ∧ arg = cw.extractLsb' 0 16) ∧
    (decode cw = .command .cFinal ↔ cw &&& 0xFFFFFFFF = 0x22000000) ∧
    (∀ index, decode cw = .command (.rd index) ↔ cw &&& 0xFFFF0000 = 0x30000000 ∧ index = cw.extractLsb' 0 16)

/-- R85, R181: the illegal words are those of the listed clauses, and executing one answers E_ILLEGAL and changes no state but
ERR, in every state. -/
def Obligations.IllegalWordRaisesEIllegal : Prop :=
  (∀ cw : Word,
    (∃ why, decode cw = .illegal why) ↔
      (cw.extractLsb' 16 8 ≠ 0 ∨
        (cw.extractLsb' 24 8 = 0x10 ∧ cw.extractLsb' 0 16 > 2) ∨
        (cw.extractLsb' 24 8 = 0x20 ∧ cw.extractLsb' 0 16 > 1) ∨
        ((cw.extractLsb' 24 8 = 0x12 ∨ cw.extractLsb' 24 8 = 0x22) ∧ cw.extractLsb' 0 16 ≠ 0) ∨
        cw.extractLsb' 24 8 ∉ ([0x10, 0x11, 0x12, 0x20, 0x21, 0x22, 0x30] : List (BitVec 8)))) ∧
  (∀ (s : State) (cw : Word) (rest : List PortInput) (why : DecodeReject),
    s.inputs = .command cw :: rest → decode cw = .illegal why →
      ∃ t, step s = .next t ∧ t.hashCtx = s.hashCtx ∧ t.crcCtx = s.crcCtx ∧
        t.err = (if s.err = .ok then .eIllegal else s.err) ∧ Answers s t .eIllegal 0)

/-- Words written out from the encoding of R83 decode to the commands they stand for (sanity; 95_test_vectors.md 2.7). -/
def Obligations.WrittenOutWordsDecode : Prop :=
  decode 0x10000000 = .command .hInitRaw ∧ decode 0x10000001 = .command .hInitHex ∧
  decode 0x10000002 = .command .hInitText ∧ decode 0x1100FFFF = .command (.hPut 0xFFFF) ∧
  decode 0x12000000 = .command .hFinal ∧ decode 0x20000000 = .command .cInitText ∧
  decode 0x20000001 = .command .cInitHex ∧ decode 0x2100ABCD = .command (.cPut 0xABCD) ∧
  decode 0x22000000 = .command .cFinal ∧ decode 0x3000FFFF = .command (.rd 0xFFFF)

/-! ## The step -/

/-- A step at whose port a command word stands is exec of the decoded command, with nothing added around it; exec itself uses
the command up when it answers (R70, R84, R90; notes/assumptions/2.md). -/
def Obligations.StepRunsDecodedInstruction : Prop :=
  ∀ (s : State) (cw : Word) (rest : List PortInput) (i : Instr),
    s.inputs = .command cw :: rest → decode cw = .command i →
      step s = exec i s ∧ ∀ t, exec i s = .next t → t.inputs = rest

/-- The port in the model (the model's choice, notes/assumptions/1.md and 2.md): a step takes the command it answers off the
inputs, legal or not; a command neither reads what else is presented nor the responses already given, and adds one response. -/
def Obligations.ExecIgnoresPortButTakesCommand : Prop :=
  (∀ (s : State) (cw : Word) (rest : List PortInput), s.inputs = .command cw :: rest →
    ∃ t, step s = .next t ∧ t.inputs = rest) ∧
  (∀ (i : Instr) (s t : State) (ins : List PortInput) (rs : List Response), exec i s = .next t →
    t.inputs = s.inputs.tail ∧ ∃ r, t.responses = s.responses ++ [r] ∧
      exec i { s with inputs := ins, responses := rs } =
        .next { t with inputs := ins.tail, responses := rs ++ [r] })

/-- R89: every command, legal or not, produces exactly one response; the datum is the entry read for a successful RD, the
final CRC value for a successful C_FINAL, and 0 otherwise; the number of the code is 0 for OK and for nothing else
(StatusAndErrFields gives the numbers of the others); as a 36-bit word the code is above the datum. -/
def Obligations.EveryCommandAnswersOnce : Prop :=
  ∀ (s : State) (cw : Word) (rest : List PortInput), s.inputs = .command cw :: rest →
    ∃ t r, step s = .next t ∧ t.responses = s.responses ++ [r] ∧
      (r.code ≠ .ok → r.data = 0) ∧
      (r.code = .ok →
        (∀ index, decode cw = .command (.rd index) → memRead s index = some r.data) ∧
        (decode cw = .command .cFinal → r.data = t.crcCtx.crc) ∧
        ((∀ index, decode cw ≠ .command (.rd index)) → decode cw ≠ .command .cFinal → r.data = 0)) ∧
      (codeBits r.code = 0 ↔ r.code = .ok) ∧
      (responseWord r).extractLsb' 32 4 = codeBits r.code ∧ (responseWord r).extractLsb' 0 32 = r.data

/-- "`step` is total" (R211): no state stops it. With nothing presented it leaves everything as it is (the model's choice,
notes/assumptions/3.md). -/
def Obligations.EveryStateSteps : Prop :=
  ∀ s : State, (∃ t, step s = .next t) ∧ (s.inputs = [] → step s = .next s)

/-- `rst` puts every element at its reset value, whatever the state (R200); how the input list carries it is the model's choice
(notes/assumptions/4.md). -/
def Obligations.ResetInputRestoresResetState : Prop :=
  ∀ (s : State) (rest : List PortInput), s.inputs = .reset :: rest →
    ∃ t, step s = .next t ∧ t.hashCtx = HashCtx.reset ∧ t.crcCtx = CrcCtx.reset ∧ t.err = .ok ∧
      t.inputs = rest ∧ t.responses = s.responses

/-- R50: the reset value of every element, the constant tables among them. -/
def Obligations.ResetValues : Prop :=
  (∀ i : Fin 8, State.reset.hashCtx.h[i] = 0 ∧ State.reset.hashCtx.sum[i] = 0) ∧
  (∀ j : Fin 32, State.reset.hashCtx.buf[j] = 0) ∧ State.reset.hashCtx.cnt = 0 ∧
  sessionBits State.reset.hashCtx.hs = 0 ∧ hashModeBits State.reset.hashCtx.hmode = 0 ∧
  State.reset.hashCtx.hnv = false ∧ State.reset.hashCtx.hnib = 0 ∧ (∀ j : Fin 64, State.reset.hashCtx.hout[j] = 0) ∧
  State.reset.crcCtx.crc = 0 ∧ sessionBits State.reset.crcCtx.cs = 0 ∧ crcModeBits State.reset.crcCtx.cmode = 0 ∧
  State.reset.crcCtx.cnv = false ∧ State.reset.crcCtx.cnib = 0 ∧ (∀ j : Fin 8, State.reset.crcCtx.cout[j] = 0) ∧
  State.reset.crcCtx.coutlen = 0 ∧ codeBits State.reset.err = 0 ∧
  (∀ i : Byte, readEntry State.reset (.t1 i) = tableT1 i ∧ readEntry State.reset (.t2 i) = tableT2 i ∧
    readEntry State.reset (.t3 i) = tableT3 i ∧ readEntry State.reset (.t4 i) = tableT4 i ∧
    readEntry State.reset (.crctab i) = crcTable i) ∧
  (∀ (r : Fin 8) (c : Nibble), readEntry State.reset (.sbox r c) = (sbox r c).setWidth 32)

/-! ## The hash commands -/

/-- R140: H_INIT completes in every state, zeroes the whole hash context, latches the mode, opens the session, and writes
nothing of the CRC context and not ERR. -/
def Obligations.HInitOpensSession : Prop :=
  ∀ (i : Instr) (mode : HashMode),
    (i = .hInitRaw ∧ mode = .raw) ∨ (i = .hInitHex ∧ mode = .hex) ∨ (i = .hInitText ∧ mode = .text) →
    ∀ s : State, ∃ t, exec i s = .next t ∧
      (∀ k : Fin 8, t.hashCtx.h[k] = 0 ∧ t.hashCtx.sum[k] = 0) ∧ (∀ j : Fin 32, t.hashCtx.buf[j] = 0) ∧
      t.hashCtx.cnt = 0 ∧ t.hashCtx.hnv = false ∧ t.hashCtx.hnib = 0 ∧ (∀ j : Fin 64, t.hashCtx.hout[j] = 0) ∧
      t.hashCtx.hmode = mode ∧ t.hashCtx.hs = .active ∧
      t.crcCtx = s.crcCtx ∧ t.err = s.err ∧ Answers s t .ok 0

/-- H_PUT in RAW mode absorbs the byte ARG[7:0] (R87, R141), with its frame. -/
def Obligations.HPutRawAbsorbsByte : Prop :=
  ∀ (s : State) (arg : Half),
    s.hashCtx.hs = .active → s.hashCtx.hmode = .raw → arg.toNat ≤ 0xFF → s.hashCtx.cnt.toNat + 1 ≤ 2 ^ 61 - 1 →
      ∃ t, exec (.hPut arg) s = .next t ∧ t.hashCtx = absorb s.hashCtx (arg.extractLsb' 0 8) ∧
        t.crcCtx = s.crcCtx ∧ t.err = s.err ∧ Answers s t .ok 0

/-- H_PUT in HEX mode with the latch clear: the digit goes into the latch and nothing is absorbed, at any length (R141). -/
def Obligations.HPutHexLatchesFirstDigit : Prop :=
  ∀ (s : State) (arg : Half) (d : Nibble),
    s.hashCtx.hs = .active → s.hashCtx.hmode = .hex → s.hashCtx.hnv = false → hexval arg = some d →
      ∃ t, exec (.hPut arg) s = .next t ∧ t.hashCtx = { s.hashCtx with hnv := true, hnib := d } ∧
        t.crcCtx = s.crcCtx ∧ t.err = s.err ∧ Answers s t .ok 0

/-- H_PUT in HEX mode with a digit latched: the byte `16 * HNIB + d` is absorbed and the latch cleared (R141). -/
def Obligations.HPutHexAbsorbsPair : Prop :=
  ∀ (s : State) (arg : Half) (d : Nibble),
    s.hashCtx.hs = .active → s.hashCtx.hmode = .hex → s.hashCtx.hnv = true → hexval arg = some d →
    s.hashCtx.cnt.toNat + 1 ≤ 2 ^ 61 - 1 →
      ∃ t x, exec (.hPut arg) s = .next t ∧ x.toNat = 16 * s.hashCtx.hnib.toNat + d.toNat ∧
        t.hashCtx = absorb { s.hashCtx with hnv := false, hnib := 0 } x ∧
        t.crcCtx = s.crcCtx ∧ t.err = s.err ∧ Answers s t .ok 0

/-- H_PUT in TEXT mode absorbs the 1 to 3 bytes of the expansion, in order (R141, R145), with its frame. -/
def Obligations.HPutTextAbsorbsExpansion : Prop :=
  ∀ (s : State) (arg : Half),
    s.hashCtx.hs = .active → s.hashCtx.hmode = .text → ¬ (0xD800 ≤ arg ∧ arg ≤ 0xDFFF) →
    s.hashCtx.cnt.toNat + (expand arg).length ≤ 2 ^ 61 - 1 →
      ∃ t, exec (.hPut arg) s = .next t ∧ t.hashCtx = (expand arg).foldl absorb s.hashCtx ∧
        t.crcCtx = s.crcCtx ∧ t.err = s.err ∧ Answers s t .ok 0

/-- R139: absorbing a byte writes `BUF[CNT mod 32]` and counts it; the 32nd byte of a block also adds the block to SUM,
compresses it into H and zeroes BUF. -/
def Obligations.AbsorbTakesOneByte : Prop :=
  ∀ (c : HashCtx) (x : Byte),
    (absorb c x).cnt = c.cnt + 1 ∧
    (c.cnt.toNat % 32 ≠ 31 →
      (∀ j : Fin 32, (absorb c x).buf[j] = if j.val = c.cnt.toNat % 32 then x else c.buf[j]) ∧
      (absorb c x).h = c.h ∧ (absorb c x).sum = c.sum) ∧
    (c.cnt.toNat % 32 = 31 →
      (∀ j : Fin 32, (absorb c x).buf[j] = 0) ∧
      (absorb c x).sum = add256 c.sum (blockOfBuf (c.buf.set 31 x)) ∧
      (absorb c x).h = compress c.h (blockOfBuf (c.buf.set 31 x))) ∧
    (absorb c x).hs = c.hs ∧ (absorb c x).hmode = c.hmode ∧ (absorb c x).hnv = c.hnv ∧
    (absorb c x).hnib = c.hnib ∧ (absorb c x).hout = c.hout

/-- H_PUT in an ACTIVE session with an illegal operand or no room: the session fails, ERR records the first error, and nothing
else changes; no byte of the operand is absorbed (R141, R183, R188). -/
def Obligations.HPutOperandErrorFailsSession : Prop :=
  ∀ (s : State) (arg : Half) (code : Code), s.hashCtx.hs = .active →
    ((s.hashCtx.hmode = .raw ∧ arg.toNat > 0xFF ∧ code = .eRange) ∨
      (s.hashCtx.hmode = .hex ∧ hexval arg = none ∧ code = .eHex) ∨
      (s.hashCtx.hmode = .text ∧ (0xD800 ≤ arg ∧ arg ≤ 0xDFFF) ∧ code = .eCodepoint) ∨
      (s.hashCtx.hmode = .raw ∧ arg.toNat ≤ 0xFF ∧ s.hashCtx.cnt.toNat + 1 > 2 ^ 61 - 1 ∧ code = .eLength) ∨
      (s.hashCtx.hmode = .hex ∧ hexval arg ≠ none ∧ s.hashCtx.hnv = true ∧
        s.hashCtx.cnt.toNat + 1 > 2 ^ 61 - 1 ∧ code = .eLength) ∨
      (s.hashCtx.hmode = .text ∧ ¬ (0xD800 ≤ arg ∧ arg ≤ 0xDFFF) ∧
        s.hashCtx.cnt.toNat + (expand arg).length > 2 ^ 61 - 1 ∧ code = .eLength)) →
      ∃ t, exec (.hPut arg) s = .next t ∧ t.hashCtx = { s.hashCtx with hs := .failed } ∧
        t.crcCtx = s.crcCtx ∧ t.err = (if s.err = .ok then code else s.err) ∧ Answers s t code 0

/-- R146: H_FINAL of an ACTIVE session with no digit unpaired: the partial block (if any), the length block and the sum are
compressed, only the partial block is summed, HOUT is the text of the digest; BUF, CNT, HMODE and the latch keep their values. -/
def Obligations.HFinalProducesDigest : Prop :=
  ∀ s : State, s.hashCtx.hs = .active → ¬ (s.hashCtx.hmode = .hex ∧ s.hashCtx.hnv = true) →
    ∃ t h1, exec .hFinal s = .next t ∧
      (s.hashCtx.cnt.toNat % 32 = 0 → h1 = s.hashCtx.h ∧ t.hashCtx.sum = s.hashCtx.sum) ∧
      (s.hashCtx.cnt.toNat % 32 ≠ 0 →
        h1 = compress s.hashCtx.h (blockOfBuf s.hashCtx.buf) ∧
        t.hashCtx.sum = add256 s.hashCtx.sum (blockOfBuf s.hashCtx.buf)) ∧
      t.hashCtx.h = compress (compress h1 (lenblock s.hashCtx.cnt)) t.hashCtx.sum ∧
      t.hashCtx.hout = renderDigest t.hashCtx.h ∧ t.hashCtx.hs = .done ∧
      t.hashCtx.buf = s.hashCtx.buf ∧ t.hashCtx.cnt = s.hashCtx.cnt ∧ t.hashCtx.hmode = s.hashCtx.hmode ∧
      t.hashCtx.hnv = s.hashCtx.hnv ∧ t.hashCtx.hnib = s.hashCtx.hnib ∧
      t.crcCtx = s.crcCtx ∧ t.err = s.err ∧ Answers s t .ok 0

/-- A FINAL with a hex digit left unpaired fails its session with E_HEX and writes nothing else but ERR (R146, R164, R185). -/
def Obligations.FinalWithUnpairedDigitFails : Prop :=
  (∀ s : State, s.hashCtx.hs = .active → s.hashCtx.hmode = .hex → s.hashCtx.hnv = true →
    ∃ t, exec .hFinal s = .next t ∧ t.hashCtx = { s.hashCtx with hs := .failed } ∧ t.crcCtx = s.crcCtx ∧
      t.err = (if s.err = .ok then .eHex else s.err) ∧ Answers s t .eHex 0) ∧
  (∀ s : State, s.crcCtx.cs = .active → s.crcCtx.cmode = .hex → s.crcCtx.cnv = true →
    ∃ t, exec .cFinal s = .next t ∧ t.crcCtx = { s.crcCtx with cs := .failed } ∧ t.hashCtx = s.hashCtx ∧
      t.err = (if s.err = .ok then .eHex else s.err) ∧ Answers s t .eHex 0)

/-! ## The CRC commands -/

/-- R162: C_INIT completes in every state, sets the accumulator to all ones and the rest of the CRC context to zero, latches
the mode, opens the session, and writes nothing of the hash context and not ERR. -/
def Obligations.CInitOpensSession : Prop :=
  ∀ (i : Instr) (mode : CrcMode), (i = .cInitText ∧ mode = .text) ∨ (i = .cInitHex ∧ mode = .hex) →
    ∀ s : State, ∃ t, exec i s = .next t ∧
      t.crcCtx.crc = 0xFFFFFFFF ∧ t.crcCtx.cnv = false ∧ t.crcCtx.cnib = 0 ∧ (∀ j : Fin 8, t.crcCtx.cout[j] = 0) ∧
      t.crcCtx.coutlen = 0 ∧ t.crcCtx.cmode = mode ∧ t.crcCtx.cs = .active ∧
      t.hashCtx = s.hashCtx ∧ t.err = s.err ∧ Answers s t .ok 0

/-- C_PUT in TEXT mode accumulates the byte ARG[7:0] by `crc = (crc >> 8) ^ CRCTAB[(crc ^ byte)[7:0]]` (R161, R163). -/
def Obligations.CPutTextAccumulatesByte : Prop :=
  ∀ (s : State) (arg : Half), s.crcCtx.cs = .active → s.crcCtx.cmode = .text → arg.toNat ≤ 0xFF →
    ∃ t, exec (.cPut arg) s = .next t ∧
      t.crcCtx = { s.crcCtx with
        crc := (s.crcCtx.crc >>> 8) ^^^ crcTable ((s.crcCtx.crc ^^^ arg.setWidth 32).extractLsb' 0 8) } ∧
      t.hashCtx = s.hashCtx ∧ t.err = s.err ∧ Answers s t .ok 0

/-- C_PUT in HEX mode with the latch clear: the digit goes into the latch and CRC is unchanged (R163). -/
def Obligations.CPutHexLatchesFirstDigit : Prop :=
  ∀ (s : State) (arg : Half) (d : Nibble),
    s.crcCtx.cs = .active → s.crcCtx.cmode = .hex → s.crcCtx.cnv = false → hexval arg = some d →
      ∃ t, exec (.cPut arg) s = .next t ∧ t.crcCtx = { s.crcCtx with cnv := true, cnib := d } ∧
        t.hashCtx = s.hashCtx ∧ t.err = s.err ∧ Answers s t .ok 0

/-- C_PUT in HEX mode with a digit latched: the byte `16 * CNIB + d` is accumulated and the latch cleared (R163). -/
def Obligations.CPutHexAccumulatesPair : Prop :=
  ∀ (s : State) (arg : Half) (d : Nibble),
    s.crcCtx.cs = .active → s.crcCtx.cmode = .hex → s.crcCtx.cnv = true → hexval arg = some d →
      ∃ t x, exec (.cPut arg) s = .next t ∧ x.toNat = 16 * s.crcCtx.cnib.toNat + d.toNat ∧
        t.crcCtx = { s.crcCtx with crc := crcstep s.crcCtx.crc x, cnv := false, cnib := 0 } ∧
        t.hashCtx = s.hashCtx ∧ t.err = s.err ∧ Answers s t .ok 0

/-- C_PUT in an ACTIVE session with an illegal operand: the session fails, ERR records the first error, nothing else changes
(R163, R183). -/
def Obligations.CPutOperandErrorFailsSession : Prop :=
  ∀ (s : State) (arg : Half) (code : Code), s.crcCtx.cs = .active →
    ((s.crcCtx.cmode = .text ∧ arg.toNat > 0xFF ∧ code = .eRange) ∨
      (s.crcCtx.cmode = .hex ∧ hexval arg = none ∧ code = .eHex)) →
      ∃ t, exec (.cPut arg) s = .next t ∧ t.crcCtx = { s.crcCtx with cs := .failed } ∧
        t.hashCtx = s.hashCtx ∧ t.err = (if s.err = .ok then code else s.err) ∧ Answers s t code 0

/-- R164: C_FINAL of an ACTIVE session with no digit unpaired: CRC is complemented, rendered in the format of the mode, and
answered; the latch and CMODE keep their values. -/
def Obligations.CFinalProducesChecksum : Prop :=
  ∀ s : State, s.crcCtx.cs = .active → ¬ (s.crcCtx.cmode = .hex ∧ s.crcCtx.cnv = true) →
    ∃ t, exec .cFinal s = .next t ∧ t.crcCtx.crc = ~~~ s.crcCtx.crc ∧
      (s.crcCtx.cmode = .text →
        t.crcCtx.cout = (renderVar t.crcCtx.crc).cout ∧ t.crcCtx.coutlen = (renderVar t.crcCtx.crc).coutlen) ∧
      (s.crcCtx.cmode = .hex →
        t.crcCtx.cout = (renderPad8 t.crcCtx.crc).cout ∧ t.crcCtx.coutlen = (renderPad8 t.crcCtx.crc).coutlen) ∧
      t.crcCtx.cs = .done ∧ t.crcCtx.cmode = s.crcCtx.cmode ∧ t.crcCtx.cnv = s.crcCtx.cnv ∧
      t.crcCtx.cnib = s.crcCtx.cnib ∧
      t.hashCtx = s.hashCtx ∧ t.err = s.err ∧ Answers s t .ok t.crcCtx.crc

/-! ## RD and the index space -/

/-- R45: the whole map, entry by entry, and the unmapped ranges. -/
def Obligations.IndexSpaceMap : Prop :=
  ∀ s : State,
    memRead s 0x0000 = some (statusWord s.hashCtx s.crcCtx) ∧
    memRead s 0x0001 = some ((codeBits s.err).setWidth 32) ∧
    (∀ i : Fin 8, memRead s (BitVec.ofNat 16 (0x0010 + i.val)) = some s.hashCtx.h[i]) ∧
    (∀ i : Fin 8, memRead s (BitVec.ofNat 16 (0x0018 + i.val)) = some s.hashCtx.sum[i]) ∧
    (∀ i : Fin 8, memRead s (BitVec.ofNat 16 (0x0020 + i.val)) =
      some ((s.hashCtx.buf[4 * i.val]'(by omega)).setWidth 32 ||| (s.hashCtx.buf[4 * i.val + 1]'(by omega)).setWidth 32 <<< 8
        ||| (s.hashCtx.buf[4 * i.val + 2]'(by omega)).setWidth 32 <<< 16
        ||| (s.hashCtx.buf[4 * i.val + 3]'(by omega)).setWidth 32 <<< 24)) ∧
    memRead s 0x0028 = some (s.hashCtx.cnt.extractLsb' 0 32) ∧
    memRead s 0x0029 = some ((s.hashCtx.cnt.extractLsb' 32 29).setWidth 32) ∧
    memRead s 0x0030 = some s.crcCtx.crc ∧
    (∀ j : Fin 64, memRead s (BitVec.ofNat 16 (0x0040 + j.val)) = some (s.hashCtx.hout[j].setWidth 32)) ∧
    (∀ j : Fin 8, memRead s (BitVec.ofNat 16 (0x0080 + j.val)) = some (s.crcCtx.cout[j].setWidth 32)) ∧
    (∀ i : Byte, memRead s (BitVec.ofNat 16 (0x0100 + i.toNat)) = some (tableT1 i)) ∧
    (∀ i : Byte, memRead s (BitVec.ofNat 16 (0x0200 + i.toNat)) = some (tableT2 i)) ∧
    (∀ i : Byte, memRead s (BitVec.ofNat 16 (0x0300 + i.toNat)) = some (tableT3 i)) ∧
    (∀ i : Byte, memRead s (BitVec.ofNat 16 (0x0400 + i.toNat)) = some (tableT4 i)) ∧
    (∀ i : Byte, memRead s (BitVec.ofNat 16 (0x0500 + i.toNat)) = some (crcTable i)) ∧
    (∀ (r : Fin 8) (c : Nibble),
      memRead s (BitVec.ofNat 16 (0x0600 + 16 * r.val + c.toNat)) = some ((sbox r c).setWidth 32)) ∧
    (∀ index : Half, IsUnmappedIndex index ↔ memRead s index = none)

/-- R175: RD completes at every mapped index in every state, answering the entry's value and writing nothing; at an unmapped
index it answers E_ADDR and writes at most ERR. -/
def Obligations.RdReadsOrRaisesEAddr : Prop :=
  ∀ (s : State) (index : Half),
    (¬ IsUnmappedIndex index →
      ∃ t v, exec (.rd index) s = .next t ∧ memRead s index = some v ∧
        t.hashCtx = s.hashCtx ∧ t.crcCtx = s.crcCtx ∧ t.err = s.err ∧ Answers s t .ok v) ∧
    (IsUnmappedIndex index →
      ∃ t, exec (.rd index) s = .next t ∧ t.hashCtx = s.hashCtx ∧ t.crcCtx = s.crcCtx ∧
        t.err = (if s.err = .ok then .eAddr else s.err) ∧ Answers s t .eAddr 0)

/-- R36: the fields of STATUS and of the ERR entry, their other bits reading as 0, with the numbers that stand in the coded fields:
the session states (R27, R32), HMODE (R28), CMODE (R32), and the codes of ERR and of a response (R35, R180). -/
def Obligations.StatusAndErrFields : Prop :=
  (∀ s : State, ∃ st er, memRead s 0x0000 = some st ∧ memRead s 0x0001 = some er ∧
    st.extractLsb' 0 2 = sessionBits s.hashCtx.hs ∧ st.extractLsb' 2 2 = hashModeBits s.hashCtx.hmode ∧
    st.extractLsb' 4 1 = BitVec.ofBool s.hashCtx.hnv ∧ st.extractLsb' 5 3 = 0 ∧
    st.extractLsb' 8 4 = s.hashCtx.hnib ∧ st.extractLsb' 12 2 = sessionBits s.crcCtx.cs ∧
    st.extractLsb' 14 1 = crcModeBits s.crcCtx.cmode ∧ st.extractLsb' 15 1 = BitVec.ofBool s.crcCtx.cnv ∧
    st.extractLsb' 16 4 = s.crcCtx.cnib ∧ st.extractLsb' 20 4 = s.crcCtx.coutlen ∧ st.extractLsb' 24 8 = 0 ∧
    er.extractLsb' 0 4 = codeBits s.err ∧ er.extractLsb' 4 28 = 0) ∧
  (sessionBits .idle = 0 ∧ sessionBits .active = 1 ∧ sessionBits .done = 2 ∧ sessionBits .failed = 3) ∧
  (hashModeBits .raw = 0 ∧ hashModeBits .hex = 1 ∧ hashModeBits .text = 2) ∧
  (crcModeBits .text = 0 ∧ crcModeBits .hex = 1) ∧
  (codeBits .ok = 0 ∧ codeBits .eIllegal = 1 ∧ codeBits .eState = 2 ∧ codeBits .eHex = 3 ∧ codeBits .eCodepoint = 4 ∧
    codeBits .eRange = 5 ∧ codeBits .eLength = 6 ∧ codeBits .eAddr = 7)

/-- The table entries read the same in every state: no command, no reset and no instance changes them (R104, R21, R22). -/
def Obligations.TableReadsAreStable : Prop :=
  ∀ (s t : State) (index : Half), 0x0100 ≤ index → memRead s index = memRead t index

/-! ## Errors and sessions -/

/-- R184: H_PUT and H_FINAL without an ACTIVE hash session, C_PUT and C_FINAL without an ACTIVE CRC session, answer E_STATE
whatever the operand, and change nothing but ERR. -/
def Obligations.PutAndFinalNeedActiveSession : Prop :=
  ∀ (s : State) (i : Instr),
    (((∃ arg, i = .hPut arg) ∨ i = .hFinal) ∧ s.hashCtx.hs ≠ .active) ∨
      (((∃ arg, i = .cPut arg) ∨ i = .cFinal) ∧ s.crcCtx.cs ≠ .active) →
    ∃ t, exec i s = .next t ∧ t.hashCtx = s.hashCtx ∧ t.crcCtx = s.crcCtx ∧
      t.err = (if s.err = .ok then .eState else s.err) ∧ Answers s t .eState 0

/-- R35: ERR takes the code of the first failing command and never changes again but by reset: over every step that is not a
reset, a response of code `c` leaves `ERR = c` if it was 0 (so a response OK leaves it 0) and leaves it alone if it was not. -/
def Obligations.ErrKeepsFirstError : Prop :=
  ∀ s t : State, step s = .next t → s.inputs.head? ≠ some .reset →
    (s.err ≠ .ok → t.err = s.err) ∧
    (s.err = .ok → (t.responses = s.responses ∧ t.err = .ok) ∨
      (∃ r, t.responses = s.responses ++ [r] ∧ t.err = r.code))

/-- R190: the session transition table, for HS and CS, over every command; `r` is the command's response. -/
def Obligations.SessionTransitions : Prop :=
  ∀ (i : Instr) (s t : State), exec i s = .next t →
    ∃ r, t.responses = s.responses ++ [r] ∧
      t.hashCtx.hs =
        (match i with
        | .hInitRaw | .hInitHex | .hInitText => .active
        | .hPut _ => if s.hashCtx.hs = .active ∧ r.code ≠ .ok then .failed else s.hashCtx.hs
        | .hFinal => if s.hashCtx.hs = .active then (if r.code = .ok then .done else .failed) else s.hashCtx.hs
        | .cInitText | .cInitHex | .cPut _ | .cFinal | .rd _ => s.hashCtx.hs) ∧
      t.crcCtx.cs =
        (match i with
        | .cInitText | .cInitHex => .active
        | .cPut _ => if s.crcCtx.cs = .active ∧ r.code ≠ .ok then .failed else s.crcCtx.cs
        | .cFinal => if s.crcCtx.cs = .active then (if r.code = .ok then .done else .failed) else s.crcCtx.cs
        | .hInitRaw | .hInitHex | .hInitText | .hPut _ | .hFinal | .rd _ => s.crcCtx.cs) ∧
      (r.code = .eState ↔
        (((∃ arg, i = .hPut arg) ∨ i = .hFinal) ∧ s.hashCtx.hs ≠ .active) ∨
          (((∃ arg, i = .cPut arg) ∨ i = .cFinal) ∧ s.crcCtx.cs ≠ .active))

/-- R182: errors are precise. After a failing command, legal or not, the state is the state before it plus, at most, ERR and one
session-state field, which then is FAILED; ERR takes the code if it was 0; the response is `(code, 0)`. -/
def Obligations.ErrorsArePrecise : Prop :=
  ∀ (s t : State) (cw : Word) (rest : List PortInput) (r : Response),
    s.inputs = .command cw :: rest → step s = .next t → t.responses = s.responses ++ [r] → r.code ≠ .ok →
    r.data = 0 ∧ t.err = (if s.err = .ok then r.code else s.err) ∧
    ((t.hashCtx = s.hashCtx ∧ t.crcCtx = s.crcCtx) ∨
      ((∃ i, decode cw = .command i ∧ isHashCommand i = true) ∧
        t.hashCtx = { s.hashCtx with hs := .failed } ∧ t.crcCtx = s.crcCtx) ∨
      ((∃ i, decode cw = .command i ∧ isCrcCommand i = true) ∧
        t.hashCtx = s.hashCtx ∧ t.crcCtx = { s.crcCtx with cs := .failed }))

/-- R73, within one instance: no H_ command reads or writes CRC-context state and no C_ command reads or writes hash-context
state (said as: the other context is unchanged, and replacing it changes nothing else). -/
def Obligations.ContextsAreIndependent : Prop :=
  (∀ (i : Instr) (s t : State) (c : CrcCtx), isHashCommand i = true → exec i s = .next t →
    t.crcCtx = s.crcCtx ∧ exec i (s.withCrc c) = .next (t.withCrc c)) ∧
  (∀ (i : Instr) (s t : State) (c : HashCtx), isCrcCommand i = true → exec i s = .next t →
    t.hashCtx = s.hashCtx ∧ exec i (s.withHash c) = .next (t.withHash c))

/-! ## The algorithms -/

/-- R101: `Tj[i]` substitutes the two nibbles of `i` in place, in byte `j-1` of a zero word, and rotates left by 11. -/
def Obligations.ExpandedTablesMeaning : Prop :=
  ∀ i : Byte,
    tableT1 i = ((sboxLow 0 i ||| sboxHigh 1 i <<< 4) <<< 0).rotateLeft 11 ∧
    tableT2 i = ((sboxLow 2 i ||| sboxHigh 3 i <<< 4) <<< 8).rotateLeft 11 ∧
    tableT3 i = ((sboxLow 4 i ||| sboxHigh 5 i <<< 4) <<< 16).rotateLeft 11 ∧
    tableT4 i = ((sboxLow 6 i ||| sboxHigh 7 i <<< 4) <<< 24).rotateLeft 11

/-- R102: the occupied bits of the four tables; the four masks are disjoint and cover all 32 bits. -/
def Obligations.ExpandedTablesOccupiedBits : Prop :=
  (∀ i : Byte, tableT1 i &&& ~~~ 0x0007F800 = 0 ∧ tableT2 i &&& ~~~ 0x07F80000 = 0 ∧
    tableT3 i &&& ~~~ 0xF8000007 = 0 ∧ tableT4 i &&& ~~~ 0x000007F8 = 0) ∧
  (∀ t : Word, roundF t =
    tableT1 (byteOf t 0) ||| tableT2 (byteOf t 1) ||| tableT3 (byteOf t 2) ||| tableT4 (byteOf t 3)) ∧
  ((0x0007F800 : Word) ||| 0x07F80000 ||| 0xF8000007 ||| 0x000007F8 = 0xFFFFFFFF)

/-- The round function of a word is: substitute each nibble `r` through row `r` of SBOX, then rotate left by 11 (R110, R101). -/
def Obligations.RoundFunctionSubstitutesThenRotates : Prop :=
  ∀ t u : Word, (∀ r : Fin 8, u.extractLsb' (4 * r.val) 4 = sbox r (t.extractLsb' (4 * r.val) 4)) →
    roundF t = u.rotateLeft 11

/-- R113: the key order in full. -/
def Obligations.KeyOrderPattern : Prop :=
  ((List.range 32).map fun j => (keyOrder j).val) =
    [0, 1, 2, 3, 4, 5, 6, 7, 0, 1, 2, 3, 4, 5, 6, 7, 0, 1, 2, 3, 4, 5, 6, 7, 7, 6, 5, 4, 3, 2, 1, 0] ∧
  (∀ j, j ≤ 23 → (keyOrder j).val = j % 8) ∧ (∀ j, 24 ≤ j → j ≤ 31 → (keyOrder j).val = 31 - j)

/-- R112: the engine of R111 and the register form are the same function. -/
def Obligations.EngineEqualsRegisterForm : Prop :=
  ∀ (left right : Word) (keys : Block),
    encryptBlock left right keys =
      { left := (encRegisters right left keys).n2, right := (encRegisters right left keys).n1 }

/-- R114: byte `b` of key word `k` is byte `k mod 4` of working word `2b + (k div 4)`; equivalently key byte `4k + b` is byte
`8b + k` of `w`. R115: no byte is dropped, so two vectors with the same keys are the same. -/
def Obligations.PTransformPermutesBytes : Prop :=
  (∀ (w : Block) (k : Fin 8) (b : Fin 4),
    byteOf (pTransform w)[k] b.val = byteOf (w[2 * b.val + k.val / 4]'(by omega)) (k.val % 4)) ∧
  (∀ w w' : Block, pTransform w = pTransform w' → w = w')

/-- R122: the A-transformation applied twice, and R121's own formula. -/
def Obligations.ATransformOnceAndTwice : Prop :=
  ∀ y : Block,
    aTransform y = #v[y[2], y[3], y[4], y[5], y[6], y[7], y[0] ^^^ y[2], y[1] ^^^ y[3]] ∧
    aTransform (aTransform y) =
      #v[y[4], y[5], y[6], y[7], y[0] ^^^ y[2], y[1] ^^^ y[3], y[2] ^^^ y[4], y[3] ^^^ y[5]]

/-- R124: one LFSR round on sixteen halfwords, and its linearity. -/
def Obligations.PsiShiftsHalfwords : Prop :=
  (∀ y : Block,
    (∀ (j : Nat) (hj : j < 15), halfwordOf (psi y) ⟨j, by omega⟩ = halfwordOf y ⟨j + 1, by omega⟩) ∧
    halfwordOf (psi y) 15 =
      halfwordOf y 0 ^^^ halfwordOf y 1 ^^^ halfwordOf y 2 ^^^ halfwordOf y 3 ^^^ halfwordOf y 12 ^^^ halfwordOf y 15) ∧
  (∀ a b : Block, psi (xorBlock a b) = xorBlock (psi a) (psi b))

/-- R126 to R130: the compression function stage by stage, with the cipher in its register form (R112). -/
def Obligations.CompressStages : Prop :=
  ∀ h m : Block, ∃ (u2 v2 u4 v4 u6 v6 k0 k2 k4 k6 s : Block),
    k0 = pTransform (xorBlock h m) ∧
    u2 = aTransform h ∧ v2 = aTransform (aTransform m) ∧ k2 = pTransform (xorBlock u2 v2) ∧
    u4 = xorBlock (aTransform u2) c3 ∧ v4 = aTransform (aTransform v2) ∧ k4 = pTransform (xorBlock u4 v4) ∧
    u6 = aTransform u4 ∧ v6 = aTransform (aTransform v4) ∧ k6 = pTransform (xorBlock u6 v6) ∧
    s[0] = (encRegisters h[0] h[1] k0).n1 ∧ s[1] = (encRegisters h[0] h[1] k0).n2 ∧
    s[2] = (encRegisters h[2] h[3] k2).n1 ∧ s[3] = (encRegisters h[2] h[3] k2).n2 ∧
    s[4] = (encRegisters h[4] h[5] k4).n1 ∧ s[5] = (encRegisters h[4] h[5] k4).n2 ∧
    s[6] = (encRegisters h[6] h[7] k6).n1 ∧ s[7] = (encRegisters h[6] h[7] k6).n2 ∧
    compress h m = psi^[61] (xorBlock h (psi (xorBlock m (psi^[12] s))))

/-- R138: word by word the chain of carries, and as numbers addition modulo 2^256. -/
def Obligations.Add256IsAdditionMod2Pow256 : Prop :=
  ∀ x y : Block,
    (∃ c : Nat → Nat, c 0 = 0 ∧ ∀ i : Fin 8,
      (add256 x y)[i].toNat = (x[i].toNat + y[i].toNat + c i.val) % 2 ^ 32 ∧
      c (i.val + 1) = (x[i].toNat + y[i].toNat + c i.val) / 2 ^ 32 ∧ c (i.val + 1) ≤ 1) ∧
    blockValue (add256 x y) = (blockValue x + blockValue y) % 2 ^ 256

/-- R60: the bytes of a buffer packed little-endian into words, and the words into a 256-bit number. -/
def Obligations.BlockPackingIsLittleEndian : Prop :=
  ∀ buf : Vector Byte 32,
    (∀ i : Fin 8, (blockOfBuf buf)[i] =
      (buf[4 * i.val]'(by omega)).setWidth 32 ||| (buf[4 * i.val + 1]'(by omega)).setWidth 32 <<< 8
        ||| (buf[4 * i.val + 2]'(by omega)).setWidth 32 <<< 16 ||| (buf[4 * i.val + 3]'(by omega)).setWidth 32 <<< 24) ∧
    blockValue (blockOfBuf buf) = ∑ j : Fin 32, buf[j].toNat * 2 ^ (8 * j.val)

/-- R148, R61: character `2k` and `2k+1` of HOUT are the high and the low digit of digest byte `k`, which is byte `k mod 4` of
`H[k div 4]`; every character is a lowercase hex digit, which reads back as its nibble. -/
def Obligations.DigestTextIsLowercaseHex : Prop :=
  (∀ (h : Block) (k : Fin 32),
    (renderDigest h)[2 * k.val]'(by omega) = hexchar ((digestByte h k).extractLsb' 4 4) ∧
    (renderDigest h)[2 * k.val + 1]'(by omega) = hexchar ((digestByte h k).extractLsb' 0 4) ∧
    digestByte h k = ((h[k.val / 4]'(by omega)) >>> (8 * (k.val % 4))).setWidth 8) ∧
  (∀ n : Nibble,
    (hexchar n).toNat = (if n.toNat ≤ 9 then 0x30 + n.toNat else 0x61 + (n.toNat - 10)) ∧
    hexval ((hexchar n).setWidth 16) = some n)

/-- R144: `hexval` by the three ranges of digits, and none elsewhere. -/
def Obligations.HexvalRanges : Prop :=
  ∀ c : Half,
    (0x30 ≤ c.toNat ∧ c.toNat ≤ 0x39 → ∃ d, hexval c = some d ∧ d.toNat = c.toNat - 0x30) ∧
    (0x41 ≤ c.toNat ∧ c.toNat ≤ 0x46 → ∃ d, hexval c = some d ∧ d.toNat = c.toNat - 0x41 + 10) ∧
    (0x61 ≤ c.toNat ∧ c.toNat ≤ 0x66 → ∃ d, hexval c = some d ∧ d.toNat = c.toNat - 0x61 + 10) ∧
    (¬ (0x30 ≤ c.toNat ∧ c.toNat ≤ 0x39) → ¬ (0x41 ≤ c.toNat ∧ c.toNat ≤ 0x46) →
      ¬ (0x61 ≤ c.toNat ∧ c.toNat ≤ 0x66) → hexval c = none)

/-- R145: the expansion by value range, its bytes as numbers. -/
def Obligations.ExpandPatterns : Prop :=
  ∀ c : Half,
    (c.toNat ≤ 0x7F → (expand c).map BitVec.toNat = [c.toNat]) ∧
    (0x80 ≤ c.toNat ∧ c.toNat ≤ 0x7FF →
      (expand c).map BitVec.toNat = [0xC0 + c.toNat / 64, 0x80 + c.toNat % 64]) ∧
    (0x800 ≤ c.toNat →
      (expand c).map BitVec.toNat = [0xE0 + c.toNat / 4096, 0x80 + c.toNat / 64 % 64, 0x80 + c.toNat % 64])

/-- R147: the length block is the bit length `8 * CNT` as a number, in words 0 and 1 only. -/
def Obligations.LengthBlockIsBitLength : Prop :=
  ∀ cnt : BitVec 61,
    (lenblock cnt)[0].toNat = 8 * cnt.toNat % 2 ^ 32 ∧ (lenblock cnt)[1].toNat = 8 * cnt.toNat / 2 ^ 32 ∧
    (∀ (i : Nat) (hi : i < 8), 2 ≤ i → (lenblock cnt)[i] = 0) ∧ blockValue (lenblock cnt) = 8 * cnt.toNat

/-- The CRC table is additive over exclusive or, and has the spot values of R160. -/
def Obligations.CrcTableIsAdditive : Prop :=
  (∀ a b : Byte, crcTable (a ^^^ b) = crcTable a ^^^ crcTable b) ∧
  crcTable 0 = 0 ∧ crcTable 1 = 0x77073096 ∧ crcTable 2 = 0xEE0E612C ∧ crcTable 8 = 0x0EDB8832 ∧
  crcTable 0x80 = 0xEDB88320 ∧ crcTable 0xFF = 0x2D02EF8D

/-- R165: the variable-width rendering: 1 digit for 0, else the least `n` in 1..8 with `v < 16^n`; the digits most significant
first, then zeros. -/
def Obligations.RenderVarIsUnpadded : Prop :=
  ∀ v : Word, ∃ n, 1 ≤ n ∧ n ≤ 8 ∧ v.toNat < 16 ^ n ∧ (∀ m, 1 ≤ m → m < n → 16 ^ m ≤ v.toNat) ∧
    (renderVar v).coutlen.toNat = n ∧
    (∀ j : Fin 8, (renderVar v).cout[j] =
      if j.val < n then hexchar (v.extractLsb' (4 * (n - 1 - j.val)) 4) else 0)

/-- R166, and R168(b): the padded rendering has 8 digits, and is the unpadded one with `8 - n` zeros in front. -/
def Obligations.RenderPad8IsPaddedRenderVar : Prop :=
  ∀ v : Word,
    (renderPad8 v).coutlen.toNat = 8 ∧
    (∀ j : Fin 8, (renderPad8 v).cout[j] = hexchar (v.extractLsb' (4 * (7 - j.val)) 4)) ∧
    (renderPad8 v).cout.toList =
      List.replicate (8 - (renderVar v).coutlen.toNat) 0x30 ++
        (renderVar v).cout.toList.take (renderVar v).coutlen.toNat

/-! ## Headline results -/

/-- Every step keeps the invariant between commands (R25, R29, R30, R33, R34, R35), from every state that meets it. -/
def Obligations.StepKeepsSessionInvariants : Prop :=
  ∀ s t : State, s.Inv → step s = .next t → t.Inv

/-- The reset state meets the invariant, and no error has occurred in it. -/
def Obligations.ResetMeetsSessionInvariants : Prop :=
  State.reset.Inv ∧ NoErrorSinceReset State.reset

/-- R151, first half: a HEX session fed pairs of hex digits (either letter case) completes and reaches the same H, SUM, BUF and CNT
as a RAW session fed the bytes the pairs stand for, from any two states whose contexts agree there. -/
def Obligations.HexSessionEqualsRawSession : Prop :=
  ∀ (pairs : List (Half × Half)) (bytes : List Byte) (s s' : State),
    List.Forall₂ (fun p x => hexval p.1 = some (x.extractLsb' 4 4) ∧ hexval p.2 = some (x.extractLsb' 0 4)) pairs bytes →
    s.hashCtx.hs = .active → s.hashCtx.hmode = .hex → s.hashCtx.hnv = false →
    s'.hashCtx.hs = .active → s'.hashCtx.hmode = .raw →
    s.hashCtx.h = s'.hashCtx.h → s.hashCtx.sum = s'.hashCtx.sum → s.hashCtx.buf = s'.hashCtx.buf →
    s.hashCtx.cnt = s'.hashCtx.cnt → s.hashCtx.cnt.toNat + bytes.length ≤ 2 ^ 61 - 1 →
    ∃ t t', runInstrs (hashPuts (pairs.flatMap fun p => [p.1, p.2])) s = .next t ∧
      runInstrs (hashPuts (bytes.map fun x => x.setWidth 16)) s' = .next t' ∧
      t.hashCtx.h = t'.hashCtx.h ∧ t.hashCtx.sum = t'.hashCtx.sum ∧ t.hashCtx.buf = t'.hashCtx.buf ∧
      t.hashCtx.cnt = t'.hashCtx.cnt ∧ t.hashCtx.hs = .active ∧ t.hashCtx.hnv = false ∧ t'.hashCtx.hs = .active

/-- R151, second half: a TEXT session fed code units, none a surrogate, completes and reaches the same H, SUM, BUF and CNT as a RAW
session fed their expansions one after another. -/
def Obligations.TextSessionEqualsRawExpansion : Prop :=
  ∀ (units : List Half) (s s' : State),
    (∀ c ∈ units, ¬ (0xD800 ≤ c ∧ c ≤ 0xDFFF)) →
    s.hashCtx.hs = .active → s.hashCtx.hmode = .text → s'.hashCtx.hs = .active → s'.hashCtx.hmode = .raw →
    s.hashCtx.h = s'.hashCtx.h → s.hashCtx.sum = s'.hashCtx.sum → s.hashCtx.buf = s'.hashCtx.buf →
    s.hashCtx.cnt = s'.hashCtx.cnt → s.hashCtx.cnt.toNat + (units.flatMap expand).length ≤ 2 ^ 61 - 1 →
    ∃ t t', runInstrs (hashPuts units) s = .next t ∧
      runInstrs (hashPuts ((units.flatMap expand).map fun x => x.setWidth 16)) s' = .next t' ∧
      t.hashCtx.h = t'.hashCtx.h ∧ t.hashCtx.sum = t'.hashCtx.sum ∧ t.hashCtx.buf = t'.hashCtx.buf ∧
      t.hashCtx.cnt = t'.hashCtx.cnt ∧ t.hashCtx.hs = .active ∧ t'.hashCtx.hs = .active

/-- R168(b): for all byte strings, from any state, CRC32_CALC_HEX of `to_hex(b)` and CRC32_CALC of `b` both complete with the same
CRC, the first rendered to 8 digits, the second without padding, and both answer it. -/
def Obligations.CrcOfHexTextEqualsCrcOfBytes : Prop :=
  ∀ (bytes : List Byte) (s s' : State),
    ∃ t t', runInstrs (crc32CalcHexSeq (toHex bytes)) s = .next t ∧
      runInstrs (crc32CalcSeq (bytes.map fun x => x.setWidth 16)) s' = .next t' ∧
      t.crcCtx.crc = ~~~ bytes.foldl crcstep 0xFFFFFFFF ∧ t'.crcCtx.crc = t.crcCtx.crc ∧
      t.crcCtx.cout = (renderPad8 t.crcCtx.crc).cout ∧ t.crcCtx.coutlen = (renderPad8 t.crcCtx.crc).coutlen ∧
      t'.crcCtx.cout = (renderVar t'.crcCtx.crc).cout ∧ t'.crcCtx.coutlen = (renderVar t'.crcCtx.crc).coutlen ∧
      t.responses.getLast? = some { code := .ok, data := t.crcCtx.crc } ∧
      t'.responses.getLast? = some { code := .ok, data := t'.crcCtx.crc }

/-- The streaming hasher computes the whole-message hash: HASH_RAW of any message of at most `2^61 - 1` bytes completes from any
state, with the digest of the message cut into blocks at once, and its text (R139, R146, R149). -/
def Obligations.StreamingHashEqualsWholeMessageHash : Prop :=
  ∀ (bytes : List Byte) (s : State), bytes.length ≤ 2 ^ 61 - 1 →
    ∃ t, runInstrs (hashRawSeq bytes) s = .next t ∧ t.hashCtx.h = messageDigest bytes ∧
      t.hashCtx.hout = renderDigest (messageDigest bytes) ∧ t.hashCtx.hs = .done ∧
      t.hashCtx.cnt.toNat = bytes.length ∧ t.crcCtx = s.crcCtx ∧ t.err = s.err
end

