-- ==== Sys2Proof/Laws/Bits.lean ====
section
/-! SUPPORT. Element lemmas of the vector-valued functions: one per function, so that a later proof reads an element without
unfolding the vector. -/

namespace Sys2Proof.Machine

@[simp] theorem xorBlock_getElem (x y : Block) (i : Nat) (hi : i < 8) : (xorBlock x y)[i] = x[i] ^^^ y[i] := by
  simp [xorBlock]

theorem blockOfBuf_getElem (buf : Vector Byte 32) (i : Nat) (hi : i < 8) :
    (blockOfBuf buf)[i] = packBytes buf[4 * i] buf[4 * i + 1] buf[4 * i + 2] buf[4 * i + 3] := by
  simp [blockOfBuf]

theorem add256_getElem (x y : Block) (i : Nat) (hi : i < 8) :
    (add256 x y)[i] = BitVec.ofNat 32 (x[i].toNat + y[i].toNat + carryInto x y i) := by
  simp [add256]

theorem pTransform_getElem (w : Block) (k : Nat) (hk : k < 8) :
    (pTransform w)[k] =
      packBytes (byteOf w[k / 4] (k % 4)) (byteOf w[2 + k / 4] (k % 4)) (byteOf w[4 + k / 4] (k % 4))
        (byteOf w[6 + k / 4] (k % 4)) := by
  simp [pTransform]

theorem renderDigest_getElem (h : Block) (n : Nat) (hn : n < 64) :
    (renderDigest h)[n] =
      hexchar (if n % 2 = 0 then (digestByte h ⟨n / 2, by omega⟩).extractLsb' 4 4
        else (digestByte h ⟨n / 2, by omega⟩).extractLsb' 0 4) := by
  simp [renderDigest]

theorem packBytes_getLsbD (b0 b1 b2 b3 : Byte) (i : Nat) :
    (packBytes b0 b1 b2 b3).getLsbD i =
      if i < 8 then b0.getLsbD i else if i < 16 then b1.getLsbD (i - 8)
      else if i < 24 then b2.getLsbD (i - 16) else b3.getLsbD (i - 24) := by
  unfold packBytes
  simp only [BitVec.getLsbD_append]
  repeat' split
  all_goals first | rfl | omega

theorem packBytes_byteOf (b0 b1 b2 b3 : Byte) (j : Fin 4) :
    byteOf (packBytes b0 b1 b2 b3) j.val = match j with | 0 => b0 | 1 => b1 | 2 => b2 | 3 => b3 := by
  apply BitVec.eq_of_getLsbD_eq
  intro i hi
  simp only [byteOf, BitVec.getLsbD_extractLsb', packBytes_getLsbD]
  fin_cases j
  · simp [hi]
  · simp [hi]; intro h; omega
  · simp [hi, show ¬ 16 + i < 8 by omega, show ¬ 16 + i < 16 by omega, show 16 + i < 24 by omega]
  · simp [hi, show ¬ 24 + i < 8 by omega, show ¬ 24 + i < 16 by omega, show ¬ 24 + i < 24 by omega]

@[simp] theorem lowHalf_append (hi lo : Half) : lowHalf (hi ++ lo) = lo := by
  apply BitVec.eq_of_getLsbD_eq
  intro i h
  rw [lowHalf, BitVec.getLsbD_extractLsb']
  erw [BitVec.getLsbD_append]
  simp [h]

@[simp] theorem highHalf_append (hi lo : Half) : highHalf (hi ++ lo) = hi := by
  apply BitVec.eq_of_getLsbD_eq
  intro i h
  rw [highHalf, BitVec.getLsbD_extractLsb']
  erw [BitVec.getLsbD_append]
  simp [h]

theorem halfwordOf_even (y : Block) (i : Nat) (hi : i < 8) : halfwordOf y ⟨2 * i, by omega⟩ = lowHalf y[i] := by
  simp [halfwordOf, lowHalf]

theorem halfwordOf_odd (y : Block) (i : Nat) (hi : i < 8) : halfwordOf y ⟨2 * i + 1, by omega⟩ = highHalf y[i] := by
  simp [halfwordOf, highHalf, show (2 * i + 1) / 2 = i by omega, show (2 * i + 1) % 2 = 1 by omega]

theorem psi_getElem (y : Block) (i : Nat) (hi : i < 7) : (psi y)[i] = lowHalf y[i + 1] ++ highHalf y[i] := by
  interval_cases i <;> rfl

theorem psi_getElem_seven (y : Block) : (psi y)[7] = psiFeedback y ++ highHalf y[7] := rfl

end Sys2Proof.Machine
end

