-- ==== Sys2Proof/Laws/State.lean ====
section
/-! SUPPORT. One lemma per field per named update, each true by rfl, so that no later proof unfolds a record update. -/

namespace Sys2Proof.Machine

section withHash
variable (s : State) (c : HashCtx)
@[simp] theorem State.withHash_hashCtx : (s.withHash c).hashCtx = c := rfl
@[simp] theorem State.withHash_crcCtx : (s.withHash c).crcCtx = s.crcCtx := rfl
@[simp] theorem State.withHash_err : (s.withHash c).err = s.err := rfl
@[simp] theorem State.withHash_inputs : (s.withHash c).inputs = s.inputs := rfl
@[simp] theorem State.withHash_responses : (s.withHash c).responses = s.responses := rfl
end withHash

section withCrc
variable (s : State) (c : CrcCtx)
@[simp] theorem State.withCrc_hashCtx : (s.withCrc c).hashCtx = s.hashCtx := rfl
@[simp] theorem State.withCrc_crcCtx : (s.withCrc c).crcCtx = c := rfl
@[simp] theorem State.withCrc_err : (s.withCrc c).err = s.err := rfl
@[simp] theorem State.withCrc_inputs : (s.withCrc c).inputs = s.inputs := rfl
@[simp] theorem State.withCrc_responses : (s.withCrc c).responses = s.responses := rfl
end withCrc

section withErr
variable (s : State) (e : Code)
@[simp] theorem State.withErr_hashCtx : (s.withErr e).hashCtx = s.hashCtx := rfl
@[simp] theorem State.withErr_crcCtx : (s.withErr e).crcCtx = s.crcCtx := rfl
@[simp] theorem State.withErr_err : (s.withErr e).err = e := rfl
@[simp] theorem State.withErr_inputs : (s.withErr e).inputs = s.inputs := rfl
@[simp] theorem State.withErr_responses : (s.withErr e).responses = s.responses := rfl
end withErr

section respond
variable (s : State) (code : Code) (data : Word)
@[simp] theorem respond_hashCtx : (respond s code data).hashCtx = s.hashCtx := rfl
@[simp] theorem respond_crcCtx : (respond s code data).crcCtx = s.crcCtx := rfl
@[simp] theorem respond_err : (respond s code data).err = s.err := rfl
@[simp] theorem respond_inputs : (respond s code data).inputs = s.inputs.tail := rfl
@[simp] theorem respond_responses :
    (respond s code data).responses = s.responses ++ [{ code := code, data := data }] := rfl
end respond

section hashSession
variable (c : HashCtx) (x : Session)
@[simp] theorem HashCtx.withHs_h : (c.withHs x).h = c.h := rfl
@[simp] theorem HashCtx.withHs_sum : (c.withHs x).sum = c.sum := rfl
@[simp] theorem HashCtx.withHs_buf : (c.withHs x).buf = c.buf := rfl
@[simp] theorem HashCtx.withHs_cnt : (c.withHs x).cnt = c.cnt := rfl
@[simp] theorem HashCtx.withHs_hs : (c.withHs x).hs = x := rfl
@[simp] theorem HashCtx.withHs_hmode : (c.withHs x).hmode = c.hmode := rfl
@[simp] theorem HashCtx.withHs_hnv : (c.withHs x).hnv = c.hnv := rfl
@[simp] theorem HashCtx.withHs_hnib : (c.withHs x).hnib = c.hnib := rfl
@[simp] theorem HashCtx.withHs_hout : (c.withHs x).hout = c.hout := rfl
end hashSession

section hashLatch
variable (c : HashCtx) (nv : Bool) (nib : Nibble)
@[simp] theorem HashCtx.withLatch_h : (c.withLatch nv nib).h = c.h := rfl
@[simp] theorem HashCtx.withLatch_sum : (c.withLatch nv nib).sum = c.sum := rfl
@[simp] theorem HashCtx.withLatch_buf : (c.withLatch nv nib).buf = c.buf := rfl
@[simp] theorem HashCtx.withLatch_cnt : (c.withLatch nv nib).cnt = c.cnt := rfl
@[simp] theorem HashCtx.withLatch_hs : (c.withLatch nv nib).hs = c.hs := rfl
@[simp] theorem HashCtx.withLatch_hmode : (c.withLatch nv nib).hmode = c.hmode := rfl
@[simp] theorem HashCtx.withLatch_hnv : (c.withLatch nv nib).hnv = nv := rfl
@[simp] theorem HashCtx.withLatch_hnib : (c.withLatch nv nib).hnib = nib := rfl
@[simp] theorem HashCtx.withLatch_hout : (c.withLatch nv nib).hout = c.hout := rfl
end hashLatch

section hashBlocks
variable (c : HashCtx) (b : Block) (x : Byte)
@[simp] theorem HashCtx.processBlock_h : (c.processBlock b).h = compress c.h b := rfl
@[simp] theorem HashCtx.processBlock_sum : (c.processBlock b).sum = add256 c.sum b := rfl
@[simp] theorem HashCtx.processBlock_buf : (c.processBlock b).buf = c.buf := rfl
@[simp] theorem HashCtx.processBlock_cnt : (c.processBlock b).cnt = c.cnt := rfl
@[simp] theorem HashCtx.processBlock_hs : (c.processBlock b).hs = c.hs := rfl
@[simp] theorem HashCtx.processBlock_hmode : (c.processBlock b).hmode = c.hmode := rfl
@[simp] theorem HashCtx.processBlock_hnv : (c.processBlock b).hnv = c.hnv := rfl
@[simp] theorem HashCtx.processBlock_hnib : (c.processBlock b).hnib = c.hnib := rfl
@[simp] theorem HashCtx.processBlock_hout : (c.processBlock b).hout = c.hout := rfl
@[simp] theorem HashCtx.pushByte_h : (c.pushByte x).h = c.h := rfl
@[simp] theorem HashCtx.pushByte_sum : (c.pushByte x).sum = c.sum := rfl
@[simp] theorem HashCtx.pushByte_buf :
    (c.pushByte x).buf = c.buf.set (c.cnt.toNat % 32) x (Nat.mod_lt _ (by decide)) := rfl
@[simp] theorem HashCtx.pushByte_cnt : (c.pushByte x).cnt = c.cnt + 1 := rfl
@[simp] theorem HashCtx.pushByte_hs : (c.pushByte x).hs = c.hs := rfl
@[simp] theorem HashCtx.pushByte_hmode : (c.pushByte x).hmode = c.hmode := rfl
@[simp] theorem HashCtx.pushByte_hnv : (c.pushByte x).hnv = c.hnv := rfl
@[simp] theorem HashCtx.pushByte_hnib : (c.pushByte x).hnib = c.hnib := rfl
@[simp] theorem HashCtx.pushByte_hout : (c.pushByte x).hout = c.hout := rfl
end hashBlocks

section hashOpened
variable (mode : HashMode)
@[simp] theorem HashCtx.opened_h : (HashCtx.opened mode).h = Vector.replicate 8 0 := rfl
@[simp] theorem HashCtx.opened_sum : (HashCtx.opened mode).sum = Vector.replicate 8 0 := rfl
@[simp] theorem HashCtx.opened_buf : (HashCtx.opened mode).buf = Vector.replicate 32 0 := rfl
@[simp] theorem HashCtx.opened_cnt : (HashCtx.opened mode).cnt = 0 := rfl
@[simp] theorem HashCtx.opened_hs : (HashCtx.opened mode).hs = .active := rfl
@[simp] theorem HashCtx.opened_hmode : (HashCtx.opened mode).hmode = mode := rfl
@[simp] theorem HashCtx.opened_hnv : (HashCtx.opened mode).hnv = false := rfl
@[simp] theorem HashCtx.opened_hnib : (HashCtx.opened mode).hnib = 0 := rfl
@[simp] theorem HashCtx.opened_hout : (HashCtx.opened mode).hout = Vector.replicate 64 0 := rfl
end hashOpened

section crcSession
variable (c : CrcCtx) (x : Session)
@[simp] theorem CrcCtx.withCs_crc : (c.withCs x).crc = c.crc := rfl
@[simp] theorem CrcCtx.withCs_cs : (c.withCs x).cs = x := rfl
@[simp] theorem CrcCtx.withCs_cmode : (c.withCs x).cmode = c.cmode := rfl
@[simp] theorem CrcCtx.withCs_cnv : (c.withCs x).cnv = c.cnv := rfl
@[simp] theorem CrcCtx.withCs_cnib : (c.withCs x).cnib = c.cnib := rfl
@[simp] theorem CrcCtx.withCs_cout : (c.withCs x).cout = c.cout := rfl
@[simp] theorem CrcCtx.withCs_coutlen : (c.withCs x).coutlen = c.coutlen := rfl
end crcSession

section crcLatch
variable (c : CrcCtx) (nv : Bool) (nib : Nibble)
@[simp] theorem CrcCtx.withLatch_crc : (c.withLatch nv nib).crc = c.crc := rfl
@[simp] theorem CrcCtx.withLatch_cs : (c.withLatch nv nib).cs = c.cs := rfl
@[simp] theorem CrcCtx.withLatch_cmode : (c.withLatch nv nib).cmode = c.cmode := rfl
@[simp] theorem CrcCtx.withLatch_cnv : (c.withLatch nv nib).cnv = nv := rfl
@[simp] theorem CrcCtx.withLatch_cnib : (c.withLatch nv nib).cnib = nib := rfl
@[simp] theorem CrcCtx.withLatch_cout : (c.withLatch nv nib).cout = c.cout := rfl
@[simp] theorem CrcCtx.withLatch_coutlen : (c.withLatch nv nib).coutlen = c.coutlen := rfl
end crcLatch

section crcAccumulate
variable (c : CrcCtx) (bs : List Byte)
@[simp] theorem CrcCtx.accumulate_crc : (c.accumulate bs).crc = bs.foldl crcstep c.crc := rfl
@[simp] theorem CrcCtx.accumulate_cs : (c.accumulate bs).cs = c.cs := rfl
@[simp] theorem CrcCtx.accumulate_cmode : (c.accumulate bs).cmode = c.cmode := rfl
@[simp] theorem CrcCtx.accumulate_cnv : (c.accumulate bs).cnv = c.cnv := rfl
@[simp] theorem CrcCtx.accumulate_cnib : (c.accumulate bs).cnib = c.cnib := rfl
@[simp] theorem CrcCtx.accumulate_cout : (c.accumulate bs).cout = c.cout := rfl
@[simp] theorem CrcCtx.accumulate_coutlen : (c.accumulate bs).coutlen = c.coutlen := rfl
end crcAccumulate

section crcOpened
variable (mode : CrcMode)
@[simp] theorem CrcCtx.opened_crc : (CrcCtx.opened mode).crc = 0xFFFFFFFF := rfl
@[simp] theorem CrcCtx.opened_cs : (CrcCtx.opened mode).cs = .active := rfl
@[simp] theorem CrcCtx.opened_cmode : (CrcCtx.opened mode).cmode = mode := rfl
@[simp] theorem CrcCtx.opened_cnv : (CrcCtx.opened mode).cnv = false := rfl
@[simp] theorem CrcCtx.opened_cnib : (CrcCtx.opened mode).cnib = 0 := rfl
@[simp] theorem CrcCtx.opened_cout : (CrcCtx.opened mode).cout = Vector.replicate 8 0 := rfl
@[simp] theorem CrcCtx.opened_coutlen : (CrcCtx.opened mode).coutlen = 0 := rfl
end crcOpened

section port
variable (s : State) (cw : Word)
@[simp] theorem resetInput_hashCtx : (resetInput s).hashCtx = HashCtx.reset := rfl
@[simp] theorem resetInput_crcCtx : (resetInput s).crcCtx = CrcCtx.reset := rfl
@[simp] theorem resetInput_err : (resetInput s).err = .ok := rfl
@[simp] theorem resetInput_inputs : (resetInput s).inputs = s.inputs.tail := rfl
@[simp] theorem resetInput_responses : (resetInput s).responses = s.responses := rfl
@[simp] theorem presentFirst_hashCtx : (presentFirst s cw).hashCtx = s.hashCtx := rfl
@[simp] theorem presentFirst_crcCtx : (presentFirst s cw).crcCtx = s.crcCtx := rfl
@[simp] theorem presentFirst_err : (presentFirst s cw).err = s.err := rfl
@[simp] theorem presentFirst_inputs : (presentFirst s cw).inputs = .command cw :: s.inputs := rfl
@[simp] theorem presentFirst_responses : (presentFirst s cw).responses = s.responses := rfl
end port

end Sys2Proof.Machine
end

