-- ==== Sys2Proof/Laws/Ops.lean ====
section
/-! SUPPORT. What taking an error does, once for each shared operation (60_exceptions.md rules R182, R183), field by field. -/

namespace Sys2Proof.Machine

@[simp] theorem stickyErr_ok (new : Code) : stickyErr .ok new = new := rfl

theorem stickyErr_of_ne {old : Code} (h : old ≠ .ok) (new : Code) : stickyErr old new = old := if_neg h

theorem stickyErr_ne_ok {new : Code} (h : new ≠ .ok) (old : Code) : stickyErr old new ≠ .ok := by
  by_cases ho : old = .ok
  · simpa [ho] using h
  · rwa [stickyErr_of_ne ho]

section raise
variable (s : State) (code : Code)
@[simp] theorem raise_hashCtx : (raise s code).hashCtx = s.hashCtx := rfl
@[simp] theorem raise_crcCtx : (raise s code).crcCtx = s.crcCtx := rfl
@[simp] theorem raise_err : (raise s code).err = stickyErr s.err code := rfl
@[simp] theorem raise_inputs : (raise s code).inputs = s.inputs.tail := rfl
@[simp] theorem raise_responses : (raise s code).responses = s.responses ++ [{ code := code, data := 0 }] := rfl
@[simp] theorem sessionFailHash_hashCtx : (sessionFailHash s code).hashCtx = s.hashCtx.withHs .failed := rfl
@[simp] theorem sessionFailHash_crcCtx : (sessionFailHash s code).crcCtx = s.crcCtx := rfl
@[simp] theorem sessionFailHash_err : (sessionFailHash s code).err = stickyErr s.err code := rfl
@[simp] theorem sessionFailHash_inputs : (sessionFailHash s code).inputs = s.inputs.tail := rfl
@[simp] theorem sessionFailHash_responses :
    (sessionFailHash s code).responses = s.responses ++ [{ code := code, data := 0 }] := rfl
@[simp] theorem sessionFailCrc_hashCtx : (sessionFailCrc s code).hashCtx = s.hashCtx := rfl
@[simp] theorem sessionFailCrc_crcCtx : (sessionFailCrc s code).crcCtx = s.crcCtx.withCs .failed := rfl
@[simp] theorem sessionFailCrc_err : (sessionFailCrc s code).err = stickyErr s.err code := rfl
@[simp] theorem sessionFailCrc_inputs : (sessionFailCrc s code).inputs = s.inputs.tail := rfl
@[simp] theorem sessionFailCrc_responses :
    (sessionFailCrc s code).responses = s.responses ++ [{ code := code, data := 0 }] := rfl
end raise

/-- Only OK has the number 0 (R180). -/
@[simp] theorem codeBits_eq_zero_iff (c : Code) : codeBits c = 0 ↔ c = .ok := by cases c <;> decide

end Sys2Proof.Machine
end

