-- ==== Sys2Proof/Laws/HashStream.lean ====
section
/-! SUPPORT. What absorbing a byte, absorbing several, and finishing a hash can do (43_hash_stream.md rules R139, R146). -/

namespace Sys2Proof.Machine

theorem cnt_succ_toNat (n : BitVec 61) : (n + 1).toNat = (n.toNat + 1) % 2 ^ 61 := BitVec.toNat_add n 1

theorem cnt_succ_mod_32 (n : BitVec 61) : (n + 1).toNat % 32 = (n.toNat + 1) % 32 := by
  rw [cnt_succ_toNat]; omega

/-- The byte is not the 32nd of its block: it only goes into the buffer. -/
theorem absorb_eq_pushByte {c : HashCtx} (h : c.cnt.toNat % 32 ≠ 31) (x : Byte) : absorb c x = c.pushByte x := by
  refine if_neg ?_
  rw [HashCtx.pushByte_cnt, cnt_succ_mod_32]
  omega

/-- The byte is the 32nd of its block: the block is consumed and the buffer zeroed. -/
theorem absorb_eq_processBlock {c : HashCtx} (h : c.cnt.toNat % 32 = 31) (x : Byte) :
    absorb c x =
      { (c.pushByte x).processBlock (blockOfBuf (c.pushByte x).buf) with buf := Vector.replicate 32 0 } := by
  refine if_pos ?_
  rw [HashCtx.pushByte_cnt, cnt_succ_mod_32]
  omega

/-- One of the two: every proof about `absorb` can start here. -/
theorem absorb_cases (c : HashCtx) (x : Byte) :
    (c.cnt.toNat % 32 ≠ 31 ∧ absorb c x = c.pushByte x) ∨
      (c.cnt.toNat % 32 = 31 ∧ absorb c x =
        { (c.pushByte x).processBlock (blockOfBuf (c.pushByte x).buf) with buf := Vector.replicate 32 0 }) := by
  by_cases h : c.cnt.toNat % 32 = 31
  · exact .inr ⟨h, absorb_eq_processBlock h x⟩
  · exact .inl ⟨h, absorb_eq_pushByte h x⟩

section absorb
variable (c : HashCtx) (x : Byte)
@[simp] theorem absorb_cnt : (absorb c x).cnt = c.cnt + 1 := by
  obtain ⟨-, h⟩ | ⟨-, h⟩ := absorb_cases c x <;> rw [h] <;> rfl
@[simp] theorem absorb_hs : (absorb c x).hs = c.hs := by
  obtain ⟨-, h⟩ | ⟨-, h⟩ := absorb_cases c x <;> rw [h] <;> rfl
@[simp] theorem absorb_hmode : (absorb c x).hmode = c.hmode := by
  obtain ⟨-, h⟩ | ⟨-, h⟩ := absorb_cases c x <;> rw [h] <;> rfl
@[simp] theorem absorb_hnv : (absorb c x).hnv = c.hnv := by
  obtain ⟨-, h⟩ | ⟨-, h⟩ := absorb_cases c x <;> rw [h] <;> rfl
@[simp] theorem absorb_hnib : (absorb c x).hnib = c.hnib := by
  obtain ⟨-, h⟩ | ⟨-, h⟩ := absorb_cases c x <;> rw [h] <;> rfl
@[simp] theorem absorb_hout : (absorb c x).hout = c.hout := by
  obtain ⟨-, h⟩ | ⟨-, h⟩ := absorb_cases c x <;> rw [h] <;> rfl
end absorb

@[simp] theorem absorbAll_nil (c : HashCtx) : absorbAll c [] = c := rfl
@[simp] theorem absorbAll_cons (c : HashCtx) (x : Byte) (bs : List Byte) :
    absorbAll c (x :: bs) = absorbAll (absorb c x) bs := rfl
theorem absorbAll_append (c : HashCtx) (as bs : List Byte) :
    absorbAll c (as ++ bs) = absorbAll (absorbAll c as) bs := List.foldl_append

section absorbAll
variable (c : HashCtx) (bs : List Byte)
@[simp] theorem absorbAll_hs : (absorbAll c bs).hs = c.hs := by
  induction bs generalizing c with
  | nil => rfl
  | cons x bs ih => simp [ih]
@[simp] theorem absorbAll_hmode : (absorbAll c bs).hmode = c.hmode := by
  induction bs generalizing c with
  | nil => rfl
  | cons x bs ih => simp [ih]
@[simp] theorem absorbAll_hnv : (absorbAll c bs).hnv = c.hnv := by
  induction bs generalizing c with
  | nil => rfl
  | cons x bs ih => simp [ih]
@[simp] theorem absorbAll_hnib : (absorbAll c bs).hnib = c.hnib := by
  induction bs generalizing c with
  | nil => rfl
  | cons x bs ih => simp [ih]
@[simp] theorem absorbAll_hout : (absorbAll c bs).hout = c.hout := by
  induction bs generalizing c with
  | nil => rfl
  | cons x bs ih => simp [ih]
end absorbAll

/-- With room for them, absorbing bytes counts them exactly. -/
theorem absorbAll_cnt {c : HashCtx} {bs : List Byte} (h : c.cnt.toNat + bs.length < 2 ^ 61) :
    (absorbAll c bs).cnt.toNat = c.cnt.toNat + bs.length := by
  induction bs generalizing c with
  | nil => rfl
  | cons x bs ih =>
    simp only [List.length_cons] at h
    have hc : (c.cnt + 1).toNat = c.cnt.toNat + 1 := by
      rw [cnt_succ_toNat]; omega
    simp only [absorbAll_cons]
    rw [ih (by rw [absorb_cnt, hc]; omega), absorb_cnt, hc, List.length_cons]
    omega

/-- Absorbing does not look at the session, the mode, the latch or the digest text. -/
theorem absorb_congr (c : HashCtx) (x : Byte) (hs : Session) (mode : HashMode) (nv : Bool) (nib : Nibble)
    (hout : Vector Byte 64) :
    absorb { c with hs := hs, hmode := mode, hnv := nv, hnib := nib, hout := hout } x =
      { absorb c x with hs := hs, hmode := mode, hnv := nv, hnib := nib, hout := hout } := by
  obtain ⟨h, e⟩ | ⟨h, e⟩ := absorb_cases c x
  · rw [e, absorb_eq_pushByte (by exact h)]; rfl
  · rw [e, absorb_eq_processBlock (by exact h)]; rfl

theorem absorbAll_congr (c : HashCtx) (bs : List Byte) (hs : Session) (mode : HashMode) (nv : Bool) (nib : Nibble)
    (hout : Vector Byte 64) :
    absorbAll { c with hs := hs, hmode := mode, hnv := nv, hnib := nib, hout := hout } bs =
      { absorbAll c bs with hs := hs, hmode := mode, hnv := nv, hnib := nib, hout := hout } := by
  induction bs generalizing c with
  | nil => rfl
  | cons x bs ih => simp only [absorbAll_cons, absorb_congr, ih]

/-- The partial block of H_FINAL: taken in if one remains, and nothing but H and SUM changes. -/
theorem processPartial_cases (c : HashCtx) :
    (c.cnt.toNat % 32 = 0 ∧ c.processPartial = c) ∨
      (c.cnt.toNat % 32 ≠ 0 ∧ c.processPartial = c.processBlock (blockOfBuf c.buf)) := by
  by_cases h : c.cnt.toNat % 32 = 0
  · exact .inl ⟨h, by simp [HashCtx.processPartial, h]⟩
  · exact .inr ⟨h, by simp [HashCtx.processPartial, h]⟩

section finished
variable (c : HashCtx)
@[simp] theorem finished_buf : c.finished.buf = c.buf := by
  obtain ⟨-, h⟩ | ⟨-, h⟩ := processPartial_cases c <;> simp [HashCtx.finished, h]
@[simp] theorem finished_cnt : c.finished.cnt = c.cnt := by
  obtain ⟨-, h⟩ | ⟨-, h⟩ := processPartial_cases c <;> simp [HashCtx.finished, h]
@[simp] theorem finished_hmode : c.finished.hmode = c.hmode := by
  obtain ⟨-, h⟩ | ⟨-, h⟩ := processPartial_cases c <;> simp [HashCtx.finished, h]
@[simp] theorem finished_hnv : c.finished.hnv = c.hnv := by
  obtain ⟨-, h⟩ | ⟨-, h⟩ := processPartial_cases c <;> simp [HashCtx.finished, h]
@[simp] theorem finished_hnib : c.finished.hnib = c.hnib := by
  obtain ⟨-, h⟩ | ⟨-, h⟩ := processPartial_cases c <;> simp [HashCtx.finished, h]
@[simp] theorem finished_hs : c.finished.hs = .done := rfl
theorem finished_hout : c.finished.hout = renderDigest c.finished.h := rfl
theorem finished_sum : c.finished.sum = c.processPartial.sum := rfl
theorem finished_h :
    c.finished.h = compress (compress c.processPartial.h (lenblock c.processPartial.cnt)) c.processPartial.sum := rfl
end finished

end Sys2Proof.Machine
end

