-- ==== Sys2Proof/Laws/Exec.lean ====
section
/-! SUPPORT. What each command can do, once: if it answers next t, then one of these cases holds. Later proofs split these and do
not unfold the meanings. -/

namespace Sys2Proof.Machine

/-- An operand that is bad in a mode is so for one of three reasons. -/
theorem hashDatum_bad {c : HashCtx} {arg : Half} {code : Code} (h : hashDatum c arg = .bad code) :
    (c.hmode = .raw ∧ arg > 0x00FF ∧ code = .eRange) ∨ (c.hmode = .hex ∧ hexval arg = none ∧ code = .eHex) ∨
      (c.hmode = .text ∧ isSurrogate arg = true ∧ code = .eCodepoint) := by
  unfold hashDatum at h
  split at h
  · next hm => unfold byteDatum at h; split at h <;> simp_all
  · next hm =>
    unfold hexDatum at h
    split at h
    · simp_all
    · split at h <;> simp_all
  · next hm => unfold textDatum at h; split at h <;> simp_all

/-- Only a HEX session takes a first digit, and only with the latch clear. -/
theorem hashDatum_firstDigit {c : HashCtx} {arg : Half} {d : Nibble} (h : hashDatum c arg = .firstDigit d) :
    c.hmode = .hex ∧ c.hnv = false ∧ hexval arg = some d := by
  unfold hashDatum at h
  split at h
  · unfold byteDatum at h; split at h <;> simp_all
  · next hm =>
    unfold hexDatum at h
    split at h
    · simp_all
    · split at h <;> simp_all
  · unfold textDatum at h; split at h <;> simp_all

/-- The bytes an operand supplies, by mode. -/
theorem hashDatum_bytes {c : HashCtx} {arg : Half} {bs : List Byte} (h : hashDatum c arg = .bytes bs) :
    (c.hmode = .raw ∧ ¬ arg > 0x00FF ∧ bs = [arg.extractLsb' 0 8]) ∨
      (c.hmode = .hex ∧ c.hnv = true ∧ ∃ d, hexval arg = some d ∧ bs = [pairByte c.hnib d]) ∨
      (c.hmode = .text ∧ isSurrogate arg = false ∧ bs = expand arg) := by
  unfold hashDatum at h
  split at h
  · next hm => unfold byteDatum at h; split at h <;> simp_all
  · next hm =>
    unfold hexDatum at h
    split at h
    · simp_all
    · split at h <;> simp_all
  · next hm => unfold textDatum at h; split at h <;> simp_all

theorem crcDatum_bad {c : CrcCtx} {arg : Half} {code : Code} (h : crcDatum c arg = .bad code) :
    (c.cmode = .text ∧ arg > 0x00FF ∧ code = .eRange) ∨ (c.cmode = .hex ∧ hexval arg = none ∧ code = .eHex) := by
  unfold crcDatum at h
  split at h
  · next hm => unfold byteDatum at h; split at h <;> simp_all
  · next hm =>
    unfold hexDatum at h
    split at h
    · simp_all
    · split at h <;> simp_all

theorem crcDatum_firstDigit {c : CrcCtx} {arg : Half} {d : Nibble} (h : crcDatum c arg = .firstDigit d) :
    c.cmode = .hex ∧ c.cnv = false ∧ hexval arg = some d := by
  unfold crcDatum at h
  split at h
  · unfold byteDatum at h; split at h <;> simp_all
  · next hm =>
    unfold hexDatum at h
    split at h
    · simp_all
    · split at h <;> simp_all

theorem crcDatum_bytes {c : CrcCtx} {arg : Half} {bs : List Byte} (h : crcDatum c arg = .bytes bs) :
    (c.cmode = .text ∧ ¬ arg > 0x00FF ∧ bs = [arg.extractLsb' 0 8]) ∨
      (c.cmode = .hex ∧ c.cnv = true ∧ ∃ d, hexval arg = some d ∧ bs = [pairByte c.cnib d]) := by
  unfold crcDatum at h
  split at h
  · next hm => unfold byteDatum at h; split at h <;> simp_all
  · next hm =>
    unfold hexDatum at h
    split at h
    · simp_all
    · split at h <;> simp_all

theorem hashInit_next {mode : HashMode} {s t : State} (h : hashInit mode s = .next t) :
    t = respond (s.withHash (HashCtx.opened mode)) .ok 0 := by
  simpa [hashInit] using h.symm

theorem crcInit_next {mode : CrcMode} {s t : State} (h : crcInit mode s = .next t) :
    t = respond (s.withCrc (CrcCtx.opened mode)) .ok 0 := by
  simpa [crcInit] using h.symm

theorem execHPut_cases {arg : Half} {s t : State} (h : execHPut arg s = .next t) :
    (s.hashCtx.hs ≠ .active ∧ t = raise s .eState) ∨
      (s.hashCtx.hs = .active ∧ ∃ code, hashDatum s.hashCtx arg = .bad code ∧ t = sessionFailHash s code) ∨
      (s.hashCtx.hs = .active ∧ ∃ d, hashDatum s.hashCtx arg = .firstDigit d ∧
        t = respond (s.withHash (s.hashCtx.withLatch true d)) .ok 0) ∨
      (s.hashCtx.hs = .active ∧ ∃ bs, hashDatum s.hashCtx arg = .bytes bs ∧
        s.hashCtx.cnt.toNat + bs.length > Config.maxMessageBytes ∧ t = sessionFailHash s .eLength) ∨
      (s.hashCtx.hs = .active ∧ ∃ bs, hashDatum s.hashCtx arg = .bytes bs ∧
        ¬ s.hashCtx.cnt.toNat + bs.length > Config.maxMessageBytes ∧
        t = respond (s.withHash (absorbAll s.hashCtx.latchUsed bs)) .ok 0) := by
  unfold execHPut at h
  split at h
  · next hs => exact .inl ⟨hs, by simpa using h.symm⟩
  · next hs =>
    have hs : s.hashCtx.hs = .active := by simpa using hs
    right
    split at h
    · next code hd => exact .inl ⟨hs, code, hd, by simpa using h.symm⟩
    · next d hd => exact .inr (.inl ⟨hs, d, hd, by simpa using h.symm⟩)
    · next bs hd =>
      split at h
      · next hl => exact .inr (.inr (.inl ⟨hs, bs, hd, hl, by simpa using h.symm⟩))
      · next hl => exact .inr (.inr (.inr ⟨hs, bs, hd, hl, by simpa using h.symm⟩))

theorem execHFinal_cases {s t : State} (h : execHFinal s = .next t) :
    (s.hashCtx.hs ≠ .active ∧ t = raise s .eState) ∨
      (s.hashCtx.hs = .active ∧ (s.hashCtx.hmode = .hex ∧ s.hashCtx.hnv = true) ∧ t = sessionFailHash s .eHex) ∨
      (s.hashCtx.hs = .active ∧ ¬ (s.hashCtx.hmode = .hex ∧ s.hashCtx.hnv = true) ∧
        t = respond (s.withHash s.hashCtx.finished) .ok 0) := by
  unfold execHFinal at h
  split at h
  · next hs => exact .inl ⟨hs, by simpa using h.symm⟩
  · next hs =>
    have hs : s.hashCtx.hs = .active := by simpa using hs
    right
    split at h
    · next hl => exact .inl ⟨hs, hl, by simpa using h.symm⟩
    · next hl => exact .inr ⟨hs, hl, by simpa using h.symm⟩

theorem execCPut_cases {arg : Half} {s t : State} (h : execCPut arg s = .next t) :
    (s.crcCtx.cs ≠ .active ∧ t = raise s .eState) ∨
      (s.crcCtx.cs = .active ∧ ∃ code, crcDatum s.crcCtx arg = .bad code ∧ t = sessionFailCrc s code) ∨
      (s.crcCtx.cs = .active ∧ ∃ d, crcDatum s.crcCtx arg = .firstDigit d ∧
        t = respond (s.withCrc (s.crcCtx.withLatch true d)) .ok 0) ∨
      (s.crcCtx.cs = .active ∧ ∃ bs, crcDatum s.crcCtx arg = .bytes bs ∧
        t = respond (s.withCrc (s.crcCtx.latchUsed.accumulate bs)) .ok 0) := by
  unfold execCPut at h
  split at h
  · next hs => exact .inl ⟨hs, by simpa using h.symm⟩
  · next hs =>
    have hs : s.crcCtx.cs = .active := by simpa using hs
    right
    split at h
    · next code hd => exact .inl ⟨hs, code, hd, by simpa using h.symm⟩
    · next d hd => exact .inr (.inl ⟨hs, d, hd, by simpa using h.symm⟩)
    · next bs hd => exact .inr (.inr ⟨hs, bs, hd, by simpa using h.symm⟩)

theorem execCFinal_cases {s t : State} (h : execCFinal s = .next t) :
    (s.crcCtx.cs ≠ .active ∧ t = raise s .eState) ∨
      (s.crcCtx.cs = .active ∧ (s.crcCtx.cmode = .hex ∧ s.crcCtx.cnv = true) ∧ t = sessionFailCrc s .eHex) ∨
      (s.crcCtx.cs = .active ∧ ¬ (s.crcCtx.cmode = .hex ∧ s.crcCtx.cnv = true) ∧
        t = respond (s.withCrc s.crcCtx.finished) .ok s.crcCtx.finished.crc) := by
  unfold execCFinal at h
  split at h
  · next hs => exact .inl ⟨hs, by simpa using h.symm⟩
  · next hs =>
    have hs : s.crcCtx.cs = .active := by simpa using hs
    right
    split at h
    · next hl => exact .inl ⟨hs, hl, by simpa using h.symm⟩
    · next hl => exact .inr ⟨hs, hl, by simpa using h.symm⟩

theorem execRd_cases {index : Half} {s t : State} (h : execRd index s = .next t) :
    (∃ v, memRead s index = some v ∧ t = respond s .ok v) ∨ (memRead s index = none ∧ t = raise s .eAddr) := by
  unfold execRd at h
  split at h
  · next v hv => exact .inl ⟨v, hv, by simpa using h.symm⟩
  · next hv => exact .inr ⟨hv, by simpa using h.symm⟩

/-- What a step can do: wait, reset, execute the decoded command, or answer E_ILLEGAL. -/
theorem step_cases {s t : State} (h : step s = .next t) :
    (s.inputs = [] ∧ t = s) ∨ (∃ rest, s.inputs = .reset :: rest ∧ t = resetInput s) ∨
      (∃ cw rest i, s.inputs = .command cw :: rest ∧ decode cw = .command i ∧ exec i s = .next t) ∨
      (∃ cw rest why, s.inputs = .command cw :: rest ∧ decode cw = .illegal why ∧ t = illegalCommand s) := by
  unfold step at h
  split at h
  · next hi => exact .inl ⟨hi, by simpa [portIdle] using h.symm⟩
  · next rest hi => exact .inr (.inl ⟨rest, hi, by simpa using h.symm⟩)
  · next cw rest hi =>
    split at h
    · next i hd => exact .inr (.inr (.inl ⟨cw, rest, i, hi, hd, h⟩))
    · next why hd => exact .inr (.inr (.inr ⟨cw, rest, why, hi, hd, by simpa using h.symm⟩))

end Sys2Proof.Machine
end

