-- ==== Sys2Proof/Laws/PerInstr.lean ====
section
/-! SUPPORT. The per-instruction family EncodedFieldsWellFormed: the fields of every command's word pass every check of
30_encoding.md rule R85. -/

namespace Sys2Proof.Laws.EncodedFieldsWellFormed

/-- The fields that encode a command are those of a row of rule R83. -/
def Statement (i : Instr) : Prop := (encodeFields i).wellFormed = true

theorem hInitRaw : Statement .hInitRaw := rfl
theorem hInitHex : Statement .hInitHex := rfl
theorem hInitText : Statement .hInitText := rfl
theorem hPut (arg : Half) : Statement (.hPut arg) := rfl
theorem hFinal : Statement .hFinal := rfl
theorem cInitText : Statement .cInitText := rfl
theorem cInitHex : Statement .cInitHex := rfl
theorem cPut (arg : Half) : Statement (.cPut arg) := rfl
theorem cFinal : Statement .cFinal := rfl
theorem rd (index : Half) : Statement (.rd index) := rfl

end Sys2Proof.Laws.EncodedFieldsWellFormed
end

