-- ==== Sys2Proof/Laws/Read.lean ====
section
/-! SUPPORT. The map of the index space, region by region (10_state.md rule R45): each lemma names the entry at an index, so that
no later proof walks through the whole map. -/

namespace Sys2Proof.Machine

/-- A numbered index is its own number. -/
theorem toNat_index {n : Nat} (h : n < 0x10000) : (BitVec.ofNat 16 n).toNat = n := by
  rw [BitVec.toNat_ofNat]; exact Nat.mod_eq_of_lt h

/-- Reading a mapped index is reading its entry. -/
theorem memRead_of_entryAt {s : State} {index : Half} {e : Entry} (h : entryAt index = some e) :
    memRead s index = some (readEntry s e) := by
  simp [memRead, h]

theorem memRead_eq_none {s : State} {index : Half} : memRead s index = none ↔ entryAt index = none := by
  simp [memRead]

theorem entryAt_status : entryAt 0x0000 = some .status := rfl
theorem entryAt_err : entryAt 0x0001 = some .err := rfl
theorem entryAt_cntLo : entryAt 0x0028 = some .cntLo := rfl
theorem entryAt_cntHi : entryAt 0x0029 = some .cntHi := rfl
theorem entryAt_crc : entryAt 0x0030 = some .crc := rfl
theorem entryAt_h (i : Fin 8) : entryAt (BitVec.ofNat 16 (0x0010 + i.val)) = some (.h i) := by revert i; decide
theorem entryAt_sum (i : Fin 8) : entryAt (BitVec.ofNat 16 (0x0018 + i.val)) = some (.sum i) := by revert i; decide
theorem entryAt_bufw (i : Fin 8) : entryAt (BitVec.ofNat 16 (0x0020 + i.val)) = some (.bufw i) := by revert i; decide
theorem entryAt_hout (j : Fin 64) : entryAt (BitVec.ofNat 16 (0x0040 + j.val)) = some (.hout j) := by revert j; decide
theorem entryAt_cout (j : Fin 8) : entryAt (BitVec.ofNat 16 (0x0080 + j.val)) = some (.cout j) := by revert j; decide

/-- A byte is the number of its value. -/
theorem ofNat_sub_self (i : Byte) (base : Nat) : BitVec.ofNat 8 (base + i.toNat - base) = i := by
  rw [Nat.add_sub_cancel_left, BitVec.ofNat_toNat, BitVec.setWidth_eq]

theorem entryAt_t1 (i : Byte) : entryAt (BitVec.ofNat 16 (0x0100 + i.toNat)) = some (.t1 i) := by
  have := i.isLt
  rw [entryAt, toNat_index (show 0x0100 + i.toNat < 0x10000 by omega), if_neg (by omega), tableEntryAt]
  rw [if_pos (by omega), ofNat_sub_self]

theorem entryAt_t2 (i : Byte) : entryAt (BitVec.ofNat 16 (0x0200 + i.toNat)) = some (.t2 i) := by
  have := i.isLt
  rw [entryAt, toNat_index (show 0x0200 + i.toNat < 0x10000 by omega), if_neg (by omega), tableEntryAt]
  repeat rw [if_neg (by omega)]
  rw [if_pos (by omega), ofNat_sub_self]

theorem entryAt_t3 (i : Byte) : entryAt (BitVec.ofNat 16 (0x0300 + i.toNat)) = some (.t3 i) := by
  have := i.isLt
  rw [entryAt, toNat_index (show 0x0300 + i.toNat < 0x10000 by omega), if_neg (by omega), tableEntryAt]
  repeat rw [if_neg (by omega)]
  rw [if_pos (by omega), ofNat_sub_self]

theorem entryAt_t4 (i : Byte) : entryAt (BitVec.ofNat 16 (0x0400 + i.toNat)) = some (.t4 i) := by
  have := i.isLt
  rw [entryAt, toNat_index (show 0x0400 + i.toNat < 0x10000 by omega), if_neg (by omega), tableEntryAt]
  repeat rw [if_neg (by omega)]
  rw [if_pos (by omega), ofNat_sub_self]

theorem entryAt_crctab (i : Byte) : entryAt (BitVec.ofNat 16 (0x0500 + i.toNat)) = some (.crctab i) := by
  have := i.isLt
  rw [entryAt, toNat_index (show 0x0500 + i.toNat < 0x10000 by omega), if_neg (by omega), tableEntryAt]
  repeat rw [if_neg (by omega)]
  rw [if_pos (by omega), ofNat_sub_self]

theorem entryAt_sbox (r : Fin 8) (c : Nibble) :
    entryAt (BitVec.ofNat 16 (0x0600 + 16 * r.val + c.toNat)) = some (.sbox r c) := by
  have := r.isLt
  have := c.isLt
  have hr : Fin.ofNat 8 ((0x0600 + 16 * r.val + c.toNat - 0x0600) / 16) = r := by
    apply Fin.ext; simp only [Fin.val_ofNat]; omega
  have hc : BitVec.ofNat 4 ((0x0600 + 16 * r.val + c.toNat - 0x0600) % 16) = c := by
    apply BitVec.eq_of_toNat_eq; rw [BitVec.toNat_ofNat]; omega
  rw [entryAt, toNat_index (show 0x0600 + 16 * r.val + c.toNat < 0x10000 by omega), if_neg (by omega), tableEntryAt]
  repeat rw [if_neg (by omega)]
  rw [if_pos (by omega), hr, hc]

theorem stateEntryAt_eq_none (n : Nat) :
    stateEntryAt n = none ↔
      (0x0002 ≤ n ∧ n ≤ 0x000F) ∨ (0x002A ≤ n ∧ n ≤ 0x002F) ∨ (0x0031 ≤ n ∧ n ≤ 0x003F) ∨ 0x0088 ≤ n := by
  rw [stateEntryAt]
  by_cases h0 : n = 0
  · simp [h0]
  by_cases h1 : n = 1
  · simp [h1]
  rw [if_neg h0, if_neg h1]
  repeat' split
  all_goals simp only [reduceCtorEq, false_iff, true_iff]
  all_goals omega

theorem tableEntryAt_eq_none (n : Nat) : tableEntryAt n = none ↔ 0x0680 ≤ n := by
  unfold tableEntryAt
  repeat' split
  all_goals simp only [reduceCtorEq, false_iff, true_iff]
  all_goals omega

/-- The indices without an entry, by value. -/
theorem entryAt_eq_none (index : Half) :
    entryAt index = none ↔
      (0x0002 ≤ index.toNat ∧ index.toNat ≤ 0x000F) ∨ (0x002A ≤ index.toNat ∧ index.toNat ≤ 0x002F) ∨
        (0x0031 ≤ index.toNat ∧ index.toNat ≤ 0x003F) ∨ (0x0088 ≤ index.toNat ∧ index.toNat ≤ 0x00FF) ∨
        0x0680 ≤ index.toNat := by
  unfold entryAt
  split
  · rw [stateEntryAt_eq_none]; omega
  · rw [tableEntryAt_eq_none]; omega

/-- At and above 0x0100 stand constants only. -/
theorem readEntry_const {index : Half} {e : Entry} (h : entryAt index = some e) (hi : 0x0100 ≤ index.toNat) (s t : State) :
    readEntry s e = readEntry t e := by
  rw [entryAt, if_neg (by omega), tableEntryAt] at h
  repeat' split at h
  all_goals first | (cases h; rfl) | cases h

end Sys2Proof.Machine
end

