-- ==== Sys2Proof/Laws/Sequences.lean ====
section
/-! SUPPORT. Running a list of commands, and the blocks of a whole message, one equation per constructor. -/

namespace Sys2Proof.Machine

theorem runInstrs_cons {i : Instr} {is : List Instr} {s t : State} (h : exec i s = .next t) :
    runInstrs (i :: is) s = runInstrs is t := by
  rw [runInstrs, h]

/-- A run that completes can be continued. -/
theorem runInstrs_append {as bs : List Instr} {s t : State} (h : runInstrs as s = .next t) :
    runInstrs (as ++ bs) s = runInstrs bs t := by
  induction as generalizing s with
  | nil => cases h; rfl
  | cons a as ih =>
    simp only [runInstrs, List.cons_append] at h ⊢
    cases he : exec a s with
    | next u => rw [he] at h; exact ih h
    | fault r => rw [he] at h; cases h
    | refused r => rw [he] at h; cases h

@[simp] theorem hashPuts_nil : hashPuts [] = [] := rfl
@[simp] theorem hashPuts_cons (a : Half) (as : List Half) : hashPuts (a :: as) = .hPut a :: hashPuts as := rfl
@[simp] theorem crcPuts_nil : crcPuts [] = [] := rfl
@[simp] theorem crcPuts_cons (a : Half) (as : List Half) : crcPuts (a :: as) = .cPut a :: crcPuts as := rfl

theorem hashAndSum_zero (bytes : List Byte) : hashAndSum bytes 0 = (Vector.replicate 8 0, Vector.replicate 8 0) := by
  simp [hashAndSum]

theorem hashAndSum_succ (bytes : List Byte) (n : Nat) :
    hashAndSum bytes (n + 1) =
      (compress (hashAndSum bytes n).1 (messageBlock bytes n), add256 (hashAndSum bytes n).2 (messageBlock bytes n)) := by
  unfold hashAndSum
  rw [List.range_succ, List.foldl_append]
  rfl

end Sys2Proof.Machine
end

