-- ==== Sys2Proof/Machine/Assembler.lean ====
section
/-! DEFINITION. The assembler syntax of 30_encoding.md rule R91: the command that one line of text stands for. It is the notation of
programs, not a part of the machine: `step` never reads text. What the rule leaves open in the text is in notes/assumptions/13.md.
The macros of rule R92 are the command lists of Machine/Sequences.lean. -/

namespace Sys2Proof.Machine

/-- Is the character a blank between the parts of a line? -/
def isBlank (c : Char) : Bool := c = ' ' || c = '\t' || c = '\r'

/-- A line without its comment: "`;` starts a comment" (R91), but for the `;` of a quoted character. -/
def stripComment : List Char → List Char
  | '\'' :: c :: '\'' :: rest => '\'' :: c :: '\'' :: stripComment rest
  | ';' :: _ => []
  | c :: rest => c :: stripComment rest
  | [] => []

/-- The characters without blanks at either end. -/
def trimBlanks (cs : List Char) : List Char := ((cs.dropWhile isBlank).reverse.dropWhile isBlank).reverse

/-- The value of a decimal digit character. -/
def decDigit (c : Char) : Option Nat := if 0x30 ≤ c.toNat ∧ c.toNat ≤ 0x39 then some (c.toNat - 0x30) else none

/-- The value of a hexadecimal digit character, in either letter case. -/
def hexDigit (c : Char) : Option Nat :=
  if 0x41 ≤ c.toNat ∧ c.toNat ≤ 0x46 then some (c.toNat - 0x41 + 10)
  else if 0x61 ≤ c.toNat ∧ c.toNat ≤ 0x66 then some (c.toNat - 0x61 + 10)
  else decDigit c

/-- The number that digits give in a base, going on from `acc`. -/
def digitsFrom (base : Nat) (digit : Char → Option Nat) (acc : Nat) : List Char → Option Nat
  | [] => some acc
  | c :: rest =>
    match digit c with
    | some d => digitsFrom base digit (base * acc + d) rest
    | none => none

/-- A number in the two forms of R91, `97` and `0x61`. -/
def parseNumber : List Char → Option Nat
  | [] => none
  | '0' :: 'x' :: c :: rest => digitsFrom 16 hexDigit 0 (c :: rest)
  | c :: rest => digitsFrom 10 decDigit 0 (c :: rest)

/-- A number that fits the 16-bit field ARG (R80). -/
def fitsArg (n : Nat) : Option Half := if n < 2 ^ 16 then some (BitVec.ofNat 16 n) else none

/-- The names of single entries and their indices (R45). -/
def plainNames : List (String × Nat) :=
  [("STATUS", 0x0000), ("ERR", 0x0001), ("CNT_LO", 0x0028), ("CNT_HI", 0x0029), ("CRC", 0x0030)]

/-- The names followed by an element number, as in `HOUT10`: the index of element 0 and how many there are (R45). -/
def numberedNames : List (String × Nat × Nat) :=
  [("H", 0x0010, 8), ("SUM", 0x0018, 8), ("BUFW", 0x0020, 8), ("HOUT", 0x0040, 64), ("COUT", 0x0080, 8)]

/-- The names of tables, followed by an offset as in `T2+0x1F`: the index of entry 0 and how many there are (R45). -/
def tableNames : List (String × Nat × Nat) :=
  [("T1", 0x0100, 256), ("T2", 0x0200, 256), ("T3", 0x0300, 256), ("T4", 0x0400, 256), ("CRCTAB", 0x0500, 256),
   ("SBOX", 0x0600, 128)]

/-- What follows a given prefix, if the characters begin with it. -/
def afterPrefix : List Char → List Char → Option (List Char)
  | [], cs => some cs
  | _ :: _, [] => none
  | p :: ps, c :: cs => if p = c then afterPrefix ps cs else none

/-- An element number within its bound, on top of the index of element 0. -/
def elementIndex (base count : Nat) (n : Option Nat) : Option Nat :=
  match n with
  | some k => if k < count then some (base + k) else none
  | none => none

/-- The index that a register name of R45 names (R91). -/
def registerIndex (cs : List Char) : Option Nat :=
  (plainNames.findSome? fun x => if x.1.toList = cs then some x.2 else none) <|>
  (numberedNames.findSome? fun x =>
    match afterPrefix x.1.toList cs with
    | some (c :: rest) => elementIndex x.2.1 x.2.2 (digitsFrom 10 decDigit 0 (c :: rest))
    | _ => none) <|>
  (tableNames.findSome? fun x =>
    match afterPrefix x.1.toList cs with
    | some ('+' :: rest) => elementIndex x.2.1 x.2.2 (parseNumber rest)
    | _ => none)

/-- An operand of H_PUT or C_PUT: a number, or "a character in single quotes meaning its code" (R91). -/
def parseOperand : List Char → Option Half
  | ['\'', c, '\''] => fitsArg c.toNat
  | cs => (parseNumber cs).bind fitsArg

/-- An operand of RD: also a register name (R91). -/
def parseIndex (cs : List Char) : Option Half := parseOperand cs <|> (registerIndex cs).bind fitsArg

/-- The command of a mnemonic and the text of its operand, empty where it has none (R83, R91). -/
def assembleCommand (mnemonic operand : List Char) : Option Instr :=
  if mnemonic = "H_PUT".toList then (parseOperand operand).map .hPut
  else if mnemonic = "C_PUT".toList then (parseOperand operand).map .cPut
  else if mnemonic = "RD".toList then (parseIndex operand).map .rd
  else if operand ≠ [] then none
  else if mnemonic = "H_INIT.RAW".toList then some .hInitRaw
  else if mnemonic = "H_INIT.HEX".toList then some .hInitHex
  else if mnemonic = "H_INIT.TEXT".toList then some .hInitText
  else if mnemonic = "H_FINAL".toList then some .hFinal
  else if mnemonic = "C_INIT.TEXT".toList then some .cInitText
  else if mnemonic = "C_INIT.HEX".toList then some .cInitHex
  else if mnemonic = "C_FINAL".toList then some .cFinal
  else none

/-- What a line of a program holds. -/
inductive AsmLine where
  /-- Only blanks or a comment. -/
  | empty
  | command (i : Instr)
  deriving DecidableEq, Repr

/-- "One command per line" (R91): the command of a line, or none where the line is not in the syntax. -/
def assembleLine (line : String) : Option AsmLine :=
  let cs := trimBlanks (stripComment line.toList)
  if cs = [] then some .empty
  else
    (assembleCommand (cs.takeWhile fun c => !isBlank c) (trimBlanks (cs.dropWhile fun c => !isBlank c))).map .command

end Sys2Proof.Machine
end

