-- ==== Sys2Proof/Tests/Slice0.lean ====
section
/-! SUPPORT. The model's own tests: the smoke test of WellFormed, one written-out word for every constructor, at most two one-step
tests per instruction with the values of 95_test_vectors.md, vectors of the internal functions, and for every statement that has
hypotheses a witness that meets them all together (one for each clause, at a boundary value). -/

namespace Sys2Proof.Machine.Tests

/-- The state a step answers; only used where the step answers next. -/
def after : Host.Outcome State Fault Refusal → State
  | .next t => t
  | .fault _ => State.reset
  | .refused _ => State.reset

/-- The last response of a step (R89). -/
def answer (o : Host.Outcome State Fault Refusal) : Option Response := (after o).responses.getLast?

/-- The reset state with a hash session open. -/
def hashOpen (mode : HashMode) : State := State.reset.withHash (HashCtx.opened mode)

/-- The reset state with a hash session open and CNT at a value. -/
def hashOpenAt (mode : HashMode) (cnt : BitVec 61) : State :=
  State.reset.withHash { HashCtx.opened mode with cnt := cnt }

/-- The reset state with a HEX hash session open, a digit latched, and CNT at a value. -/
def hashLatched (d : Nibble) (cnt : BitVec 61) : State :=
  State.reset.withHash { HashCtx.opened .hex with hnv := true, hnib := d, cnt := cnt }

/-- The reset state with a CRC session open. -/
def crcOpen (mode : CrcMode) : State := State.reset.withCrc (CrcCtx.opened mode)

/-- The reset state with a HEX CRC session open and a digit latched. -/
def crcLatched (d : Nibble) : State := State.reset.withCrc ((CrcCtx.opened .hex).withLatch true d)

/-- The ASCII characters of a text, as bytes. -/
def ascii (s : String) : List Byte := s.toList.map fun c => BitVec.ofNat 8 c.toNat

/-! ## WellFormed: an ill-formed triple of fields for each check, and the refusal of its word -/

theorem test_smoke_z : (CommandFields.mk 0x11 1 0).zIsZero = false ∧ decode 0x11010000 = .illegal .zNotZero := by decide
theorem test_smoke_opc : (CommandFields.mk 0x13 0 0).opcIsKnown = false ∧ decode 0x13000000 = .illegal .noSuchOpc := by
  decide
theorem test_smoke_hash_mode :
    (CommandFields.mk 0x10 0 3).hashModeExists = false ∧ decode 0x10000003 = .illegal .noSuchHashMode := by decide
theorem test_smoke_crc_mode :
    (CommandFields.mk 0x20 0 2).crcModeExists = false ∧ decode 0x20000002 = .illegal .noSuchCrcMode := by decide
theorem test_smoke_h_final_arg :
    (CommandFields.mk 0x12 0 1).finalArgIsZero = false ∧ decode 0x12000001 = .illegal .finalArgNotZero := by decide
theorem test_smoke_c_final_arg :
    (CommandFields.mk 0x22 0 1).finalArgIsZero = false ∧ decode 0x22000001 = .illegal .finalArgNotZero := by decide
theorem test_smoke_well_formed : (CommandFields.mk 0x30 0 0xFFFF).wellFormed = true := by decide

/-! ## Decoding: words written out from the encoding rows of R83 -/

theorem test_decode_h_init_raw : decode 0b00010000000000000000000000000000 = .command .hInitRaw := by decide
theorem test_decode_h_init_hex : decode 0b00010000000000000000000000000001 = .command .hInitHex := by decide
theorem test_decode_h_init_text : decode 0b00010000000000000000000000000010 = .command .hInitText := by decide
theorem test_decode_h_put : decode 0b00010001000000001000001000111101 = .command (.hPut 0x823D) := by decide
theorem test_decode_h_final : decode 0b00010010000000000000000000000000 = .command .hFinal := by decide
theorem test_decode_c_init_text : decode 0b00100000000000000000000000000000 = .command .cInitText := by decide
theorem test_decode_c_init_hex : decode 0b00100000000000000000000000000001 = .command .cInitHex := by decide
theorem test_decode_c_put : decode 0b00100001000000000000000001100110 = .command (.cPut 0x0066) := by decide
theorem test_decode_c_final : decode 0b00100010000000000000000000000000 = .command .cFinal := by decide
theorem test_decode_rd : decode 0b00110000000000000000000100000000 = .command (.rd 0x0100) := by decide
theorem test_decode_operand_bounds :
    decode 0x11000000 = .command (.hPut 0) ∧ decode 0x1100FFFF = .command (.hPut 0xFFFF) ∧
    decode 0x21000000 = .command (.cPut 0) ∧ decode 0x2100FFFF = .command (.cPut 0xFFFF) ∧
    decode 0x30000000 = .command (.rd 0) ∧ decode 0x3000FFFF = .command (.rd 0xFFFF) := by decide
theorem test_decode_table_word : decodeTableWord 32 0x11000041 = some (.hPut 0x41) := by decide
theorem test_fetch_runs_first : answer (step (State.reset.withFetchWord 32 0x30000100)) = some ⟨.ok, 0x0002D000⟩ := by
  decide

/-! ## One step of each instruction (expected values: 95_test_vectors.md 2.4, 2.5, section 3) -/

theorem test_h_init_raw : memRead (after (exec .hInitRaw State.reset)) 0 = some 0x00000001 := by decide
theorem test_h_init_hex : memRead (after (exec .hInitHex (hashLatched 6 1))) 0 = some 0x00000005 := by decide
theorem test_h_init_text : memRead (after (exec .hInitText State.reset)) 0 = some 0x00000009 := by decide
theorem test_h_put_text_three_bytes :
    memRead (after (exec (.hPut 0x20AC) (hashOpen .text))) 0x0020 = some 0x00AC82E2 := by decide
theorem test_h_put_bad_digit_keeps_latch :
    memRead (after (exec (.hPut 0x67) (hashLatched 6 0))) 0 = some 0x00000617 := by decide
theorem test_h_final_odd_digits : answer (exec .hFinal (hashLatched 6 1)) = some ⟨.eHex, 0⟩ := by decide
theorem test_c_init_text : memRead (after (exec .cInitText State.reset)) 0x0030 = some 0xFFFFFFFF := by decide
theorem test_c_init_hex : memRead (after (exec .cInitHex State.reset)) 0 = some 0x00005000 := by decide
theorem test_c_put_text :
    memRead (after (exec (.cPut 0x31) (crcOpen .text))) 0x0030 = some 0x7C231048 := by decide
theorem test_c_put_hex_pair :
    memRead (after (exec (.cPut 0x31) (crcLatched 3))) 0x0030 = some 0x7C231048 := by decide
/-- The CRC of no bytes: "0" in TEXT mode, "00000000" in HEX mode. -/
theorem test_c_final_text_empty : (after (exec .cFinal (crcOpen .text))).crcCtx.cout.toList =
    ascii "0" ++ List.replicate 7 0 := by decide
theorem test_c_final_check_value :
    answer (exec .cFinal (State.reset.withCrc { CrcCtx.opened .text with crc := 0x340BC6D9 })) = some ⟨.ok, 0xCBF43926⟩ := by
  decide
theorem test_rd_t3 : answer (exec (.rd 0x03A5) State.reset) = some ⟨.ok, 0xE0000002⟩ := by decide
theorem test_rd_unmapped : answer (exec (.rd 0x0002) State.reset) = some ⟨.eAddr, 0⟩ := by decide

/-! ## The internal functions (95_test_vectors.md 2.1 to 2.5) -/

theorem test_round_function : roundF 0x12345678 = 0x4F8CE9A2 ∧ roundF 0xA5A5A5A5 = 0xE3230B82 := by decide
/-- The vector whose byte `n` is `n`. -/
def countingBlock : Block :=
  #v[0x03020100, 0x07060504, 0x0B0A0908, 0x0F0E0D0C, 0x13121110, 0x17161514, 0x1B1A1918, 0x1F1E1D1C]
theorem test_p_transform : pTransform countingBlock =
    #v[0x18100800, 0x19110901, 0x1A120A02, 0x1B130B03, 0x1C140C04, 0x1D150D05, 0x1E160E06, 0x1F170F07] := by
  decide
theorem test_a_transform_c3 : xorBlock (aTransform countingBlock) c3 =
    #v[0xF40AF608, 0xF00EF20C, 0x13ED11EF, 0x17E915EB, 0x1BE5E618, 0xE01E1DE3, 0x080808F7, 0xF708F7F7] := by
  decide
theorem test_add256_carry_chain : add256 #v[0xFFFFFFFF, 0xFFFFFFFF, 0xFFFFFFFF, 0xFFFFFFFF, 0xFFFFFFFF, 0xFFFFFFFF, 0xFFFFFFFF, 0]
    #v[1, 0, 0, 0, 0, 0, 0, 0] = #v[0, 0, 0, 0, 0, 0, 0, 1] := by decide
theorem test_lenblock : lenblock 4886718345 = #v[0x1A2B3C48, 9, 0, 0, 0, 0, 0, 0] := by decide
theorem test_expand : expand 0x007F = [0x7F] ∧ expand 0x0080 = [0xC2, 0x80] ∧ expand 0x07FF = [0xDF, 0xBF] ∧
    expand 0x0800 = [0xE0, 0xA0, 0x80] ∧ expand 0xFFFF = [0xEF, 0xBF, 0xBF] := by decide
theorem test_hexval_bounds : hexval 0x2F = none ∧ hexval 0x30 = some 0 ∧ hexval 0x39 = some 9 ∧ hexval 0x3A = none ∧
    hexval 0x40 = none ∧ hexval 0x41 = some 0xA ∧ hexval 0x46 = some 0xF ∧ hexval 0x47 = none ∧ hexval 0x60 = none ∧
    hexval 0x61 = some 0xA ∧ hexval 0x66 = some 0xF ∧ hexval 0x67 = none := by decide
theorem test_crcstep : crcstep 0x12345678 0x9A = 0x4E16B702 := by decide
theorem test_render_var : renderVar 0x19D = ⟨#v[0x31, 0x39, 0x64, 0, 0, 0, 0, 0], 3⟩ := by decide

/-- The STATUS words of programs P2 (row 7), P3 (row 56), P4 (row 82) and P5 (row 24), and ERR and RW (R89) of P5 (rows 10, 22, 23). -/
theorem test_status_words :
    statusWord { (hashLatched 6 1).hashCtx with hs := .failed } CrcCtx.reset = 0x00000617 ∧
    statusWord HashCtx.reset { CrcCtx.reset with cs := .done, cmode := .hex, coutlen := 8 } = 0x00806000 ∧
    statusWord { HashCtx.reset with hs := .done } { CrcCtx.reset with cs := .done, coutlen := 8 } = 0x00802002 ∧
    statusWord { HashCtx.reset with hs := .failed, hmode := .text } CrcCtx.reset = 0x0000000B := by decide
theorem test_err_and_response_words : memRead (State.reset.withErr .eCodepoint) 0x0001 = some 0x00000004 ∧
    responseWord ⟨.eAddr, 0⟩ = 0x700000000 ∧ responseWord ⟨.ok, 0x80D1BFD0⟩ = 0x080D1BFD0 := by decide

/-! ## Assembler lines (the examples of R91; words of 95_test_vectors.md section 3) -/

/-- The word of an assembler line. -/
def wordOfLine (line : String) : Option Word :=
  match assembleLine line with
  | some (.command i) => some (encode i)
  | _ => none

theorem test_asm_puts : ["H_PUT 'a'", "C_PUT 97", " H_PUT 0xD83D ; high surrogate", "H_PUT ';'"].map wordOfLine =
    [some 0x11000061, some 0x21000061, some 0x1100D83D, some 0x1100003B] := by decide
theorem test_asm_rd_names : ["RD STATUS", "RD H3", "RD HOUT10", "RD T2+0x1F", "RD SBOX+0x35", "RD 0x0002"].map wordOfLine =
    [some 0x30000000, some 0x30000013, some 0x3000004A, some 0x3000021F, some 0x30000635, some 0x30000002] := by decide
theorem test_asm_inits : ["H_INIT.TEXT", "C_INIT.HEX", "H_FINAL", "C_FINAL"].map wordOfLine =
    [some 0x10000002, some 0x20000001, some 0x12000000, some 0x22000000] := by decide
theorem test_asm_rejects : ["H_PUT 0x10000", "RD H8", "H_FINAL 1", "C_INIT.RAW", "RD SBOX+128"].map wordOfLine =
    [none, none, none, none, none] := by decide

/-! ## Witnesses: concrete states and operands that meet the hypotheses of the statements -/

/-- EncodeInvertsDecode. -/
theorem witness_encode_inverts_decode : decode 0x1100FFFF = .command (.hPut 0xFFFF) := by decide

/-- IllegalWordRaisesEIllegal, StepRunsDecodedInstruction, EveryCommandAnswersOnce, ExecIgnoresPortButTakesCommand: a word at the
port of a step. -/
theorem witness_illegal_word :
    (presentFirst State.reset 0x12000001).inputs = .command 0x12000001 :: [] ∧
      decode 0x12000001 = .illegal .finalArgNotZero := by decide
theorem witness_illegal_word_after_error :
    (presentFirst (State.reset.withErr .eHex) 0xFFFFFFFF).inputs = .command 0xFFFFFFFF :: [] ∧
      decode 0xFFFFFFFF = .illegal .zNotZero := by decide
theorem witness_step_runs_decoded :
    (presentFirst State.reset 0x11000061).inputs = .command 0x11000061 :: [] ∧ decode 0x11000061 = .command (.hPut 0x61) ∧
      exec (.hPut 0x61) (presentFirst State.reset 0x11000061) = .next (raise (presentFirst State.reset 0x11000061) .eState) :=
  ⟨rfl, rfl, rfl⟩
/-- EveryCommandAnswersOnce: a successful RD, a successful C_FINAL, another success, an error. -/
theorem witness_answers_rd : answer (step (presentFirst State.reset 0x3000067F)) = some ⟨.ok, 0xC⟩ := by decide
theorem witness_answers_c_final : answer (step (presentFirst (crcOpen .hex) 0x22000000)) = some ⟨.ok, 0⟩ := by decide
theorem witness_answers_other : answer (step (presentFirst State.reset 0x10000000)) = some ⟨.ok, 0⟩ := by decide
theorem witness_answers_error : answer (step (presentFirst State.reset 0x12000000)) = some ⟨.eState, 0⟩ := by decide

/-- EveryStateSteps: an empty port. ResetInputRestoresResetState: `rst` at the port of a machine in use. -/
theorem witness_port_empty : (hashOpen .raw).inputs = [] := by decide
theorem witness_reset_input :
    (State.mk (HashCtx.opened .hex) (CrcCtx.opened .text) .eAddr [.reset, .command 0] [⟨.ok, 5⟩]).inputs =
      .reset :: [.command 0] := by decide

/-- HInitOpensSession and CInitOpensSession: each mode. -/
theorem witness_h_init : ∀ p ∈ [(Instr.hInitRaw, HashMode.raw), (.hInitHex, .hex), (.hInitText, .text)],
    (p.1 = .hInitRaw ∧ p.2 = .raw) ∨ (p.1 = .hInitHex ∧ p.2 = .hex) ∨ (p.1 = .hInitText ∧ p.2 = .text) := by decide
theorem witness_c_init : ∀ p ∈ [(Instr.cInitText, CrcMode.text), (.cInitHex, .hex)],
    (p.1 = .cInitText ∧ p.2 = .text) ∨ (p.1 = .cInitHex ∧ p.2 = .hex) := by decide

/-- HPutRawAbsorbsByte, at the largest byte and the last place of a message. -/
theorem witness_h_put_raw :
    let s := hashOpenAt .raw 0x1FFFFFFFFFFFFFFE
    s.hashCtx.hs = .active ∧ s.hashCtx.hmode = .raw ∧ (0xFF : Half).toNat ≤ 0xFF ∧ s.hashCtx.cnt.toNat + 1 ≤ 2 ^ 61 - 1 := by
  decide
/-- HPutHexLatchesFirstDigit, at the fullest message. -/
theorem witness_h_put_first_digit :
    let s := hashOpenAt .hex 0x1FFFFFFFFFFFFFFF
    s.hashCtx.hs = .active ∧ s.hashCtx.hmode = .hex ∧ s.hashCtx.hnv = false ∧ hexval 0x66 = some 0xF := by decide
/-- HPutHexAbsorbsPair, at the last place of a message. -/
theorem witness_h_put_pair :
    let s := hashLatched 0xF 0x1FFFFFFFFFFFFFFE
    s.hashCtx.hs = .active ∧ s.hashCtx.hmode = .hex ∧ s.hashCtx.hnv = true ∧ hexval 0x46 = some 0xF ∧
      s.hashCtx.cnt.toNat + 1 ≤ 2 ^ 61 - 1 := by decide
/-- HPutTextAbsorbsExpansion, beside the surrogates and at the last places of a message. -/
theorem witness_h_put_text :
    let s := hashOpenAt .text 0x1FFFFFFFFFFFFFFC
    s.hashCtx.hs = .active ∧ s.hashCtx.hmode = .text ∧
      (¬ ((0xD800 : Half) ≤ 0xD7FF ∧ (0xD7FF : Half) ≤ 0xDFFF) ∧
        s.hashCtx.cnt.toNat + (expand 0xD7FF).length ≤ 2 ^ 61 - 1) ∧
      (¬ ((0xD800 : Half) ≤ 0xE000 ∧ (0xE000 : Half) ≤ 0xDFFF) ∧
        s.hashCtx.cnt.toNat + (expand 0xE000).length ≤ 2 ^ 61 - 1) := by decide
/-- AbsorbTakesOneByte: a byte inside a block and the 32nd. -/
theorem witness_absorb : (hashOpenAt .raw 30).hashCtx.cnt.toNat % 32 ≠ 31 ∧ (hashOpenAt .raw 63).hashCtx.cnt.toNat % 32 = 31 := by
  decide

/-- HPutOperandErrorFailsSession: each clause at its boundary. -/
theorem witness_h_put_range :
    (hashOpen .raw).hashCtx.hs = .active ∧ (hashOpen .raw).hashCtx.hmode = .raw ∧ (0x100 : Half).toNat > 0xFF := by decide
theorem witness_h_put_hex :
    (hashOpen .hex).hashCtx.hs = .active ∧ (hashOpen .hex).hashCtx.hmode = .hex ∧ hexval 0x67 = none := by decide
theorem witness_h_put_codepoint :
    (hashOpen .text).hashCtx.hs = .active ∧ (hashOpen .text).hashCtx.hmode = .text ∧
      ((0xD800 : Half) ≤ 0xD800 ∧ (0xD800 : Half) ≤ 0xDFFF) ∧ ((0xD800 : Half) ≤ 0xDFFF ∧ (0xDFFF : Half) ≤ 0xDFFF) := by
  decide
theorem witness_h_put_raw_length :
    let s := hashOpenAt .raw 0x1FFFFFFFFFFFFFFF
    s.hashCtx.hs = .active ∧ s.hashCtx.hmode = .raw ∧ (0xFF : Half).toNat ≤ 0xFF ∧ s.hashCtx.cnt.toNat + 1 > 2 ^ 61 - 1 := by
  decide
theorem witness_h_put_hex_length :
    let s := hashLatched 0 0x1FFFFFFFFFFFFFFF
    s.hashCtx.hs = .active ∧ s.hashCtx.hmode = .hex ∧ hexval 0x30 ≠ none ∧ s.hashCtx.hnv = true ∧
      s.hashCtx.cnt.toNat + 1 > 2 ^ 61 - 1 := by decide
theorem witness_h_put_text_length :
    let s := hashOpenAt .text 0x1FFFFFFFFFFFFFFD
    s.hashCtx.hs = .active ∧ s.hashCtx.hmode = .text ∧ ¬ ((0xD800 : Half) ≤ 0x0800 ∧ (0x0800 : Half) ≤ 0xDFFF) ∧
      s.hashCtx.cnt.toNat + (expand 0x0800).length > 2 ^ 61 - 1 := by decide

/-- HFinalProducesDigest: no partial block, and one. -/
theorem witness_h_final_whole_blocks :
    let s := hashOpenAt .hex 32
    s.hashCtx.hs = .active ∧ ¬ (s.hashCtx.hmode = .hex ∧ s.hashCtx.hnv = true) ∧ s.hashCtx.cnt.toNat % 32 = 0 := by
  decide
theorem witness_h_final_partial_block :
    let s := hashOpenAt .raw 33
    s.hashCtx.hs = .active ∧ ¬ (s.hashCtx.hmode = .hex ∧ s.hashCtx.hnv = true) ∧ s.hashCtx.cnt.toNat % 32 ≠ 0 := by
  decide
/-- FinalWithUnpairedDigitFails: both contexts. -/
theorem witness_h_final_unpaired :
    let s := hashLatched 6 1
    s.hashCtx.hs = .active ∧ s.hashCtx.hmode = .hex ∧ s.hashCtx.hnv = true := by decide
theorem witness_c_final_unpaired :
    let s := crcLatched 6
    s.crcCtx.cs = .active ∧ s.crcCtx.cmode = .hex ∧ s.crcCtx.cnv = true := by decide

/-- CPutTextAccumulatesByte, CPutHexLatchesFirstDigit, CPutHexAccumulatesPair, CPutOperandErrorFailsSession. -/
theorem witness_c_put_text :
    (crcOpen .text).crcCtx.cs = .active ∧ (crcOpen .text).crcCtx.cmode = .text ∧ (0xFF : Half).toNat ≤ 0xFF := by decide
theorem witness_c_put_first_digit :
    (crcOpen .hex).crcCtx.cs = .active ∧ (crcOpen .hex).crcCtx.cmode = .hex ∧ (crcOpen .hex).crcCtx.cnv = false ∧
      hexval 0x39 = some 9 := by decide
theorem witness_c_put_pair :
    (crcLatched 3).crcCtx.cs = .active ∧ (crcLatched 3).crcCtx.cmode = .hex ∧ (crcLatched 3).crcCtx.cnv = true ∧
      hexval 0x41 = some 0xA := by decide
theorem witness_c_put_range :
    (crcOpen .text).crcCtx.cs = .active ∧ (crcOpen .text).crcCtx.cmode = .text ∧ (0x100 : Half).toNat > 0xFF := by decide
theorem witness_c_put_hex :
    (crcLatched 3).crcCtx.cs = .active ∧ (crcLatched 3).crcCtx.cmode = .hex ∧ hexval 0x3A = none := by decide
/-- CFinalProducesChecksum: each format. -/
theorem witness_c_final :
    ∀ mode ∈ [CrcMode.text, .hex], (crcOpen mode).crcCtx.cs = .active ∧
      ¬ ((crcOpen mode).crcCtx.cmode = .hex ∧ (crcOpen mode).crcCtx.cnv = true) := by decide

/-- RdReadsOrRaisesEAddr and IndexSpaceMap: both sides of every bound of the unmapped ranges. -/
theorem witness_unmapped :
    ∀ index ∈ ([0x0002, 0x000F, 0x002A, 0x002F, 0x0031, 0x003F, 0x0088, 0x00FF, 0x0680, 0xFFFF] : List Half),
      IsUnmappedIndex index := by simp [IsUnmappedIndex]
theorem witness_mapped :
    ∀ index ∈ ([0x0000, 0x0001, 0x0010, 0x0029, 0x0030, 0x0040, 0x0087, 0x0100, 0x067F] : List Half),
      ¬ IsUnmappedIndex index := by simp [IsUnmappedIndex]
/-- TableReadsAreStable, at its lowest index. -/
theorem witness_table_index : (0x0100 : Half) ≤ 0x0100 := by decide

/-- PutAndFinalNeedActiveSession: a session that is IDLE, DONE and FAILED, for each of the four commands. -/
theorem witness_h_not_active : ∀ x ∈ [Session.idle, .done, .failed], ∀ i ∈ [Instr.hPut 0x61, .hFinal],
    ((∃ arg, i = .hPut arg) ∨ i = .hFinal) ∧ ((hashOpen .raw).withHash ((hashOpen .raw).hashCtx.withHs x)).hashCtx.hs ≠ .active := by
  simp [State.withHash, HashCtx.withHs]
theorem witness_c_not_active : ∀ x ∈ [Session.idle, .done, .failed], ∀ i ∈ [Instr.cPut 0x61, .cFinal],
    ((∃ arg, i = .cPut arg) ∨ i = .cFinal) ∧ ((crcOpen .text).withCrc ((crcOpen .text).crcCtx.withCs x)).crcCtx.cs ≠ .active := by
  simp [State.withCrc, CrcCtx.withCs]

/-- ErrKeepsFirstError: an error with ERR clear, and one with ERR set. -/
theorem witness_err_first :
    let s := presentFirst State.reset 0x12000000
    step s = .next (raise s .eState) ∧ s.inputs.head? ≠ some .reset ∧ s.err = .ok := ⟨rfl, by decide, rfl⟩
theorem witness_err_later :
    let s := presentFirst (State.reset.withErr .eHex) 0x30000680
    step s = .next (raise s .eAddr) ∧ s.inputs.head? ≠ some .reset ∧ s.err ≠ .ok := ⟨rfl, by decide, by decide⟩
/-- SessionTransitions: a failing H_FINAL. -/
theorem witness_session_transition :
    exec .hFinal (hashLatched 6 1) = .next (sessionFailHash (hashLatched 6 1) .eHex) := rfl
/-- ErrorsArePrecise: each of its three cases, with the response. -/
theorem witness_error_illegal :
    let s := presentFirst State.reset 0x13000000
    s.inputs = .command 0x13000000 :: [] ∧ step s = .next (raise s .eIllegal) ∧
      (raise s .eIllegal).responses = s.responses ++ [⟨.eIllegal, 0⟩] ∧ Code.eIllegal ≠ .ok := ⟨rfl, rfl, rfl, by decide⟩
theorem witness_error_hash :
    let s := presentFirst (hashLatched 6 1) 0x12000000
    s.inputs = .command 0x12000000 :: [] ∧ step s = .next (sessionFailHash s .eHex) ∧
      (sessionFailHash s .eHex).responses = s.responses ++ [⟨.eHex, 0⟩] ∧ Code.eHex ≠ .ok := ⟨rfl, rfl, rfl, by decide⟩
theorem witness_error_crc :
    let s := presentFirst (crcOpen .text) 0x21000100
    s.inputs = .command 0x21000100 :: [] ∧ step s = .next (sessionFailCrc s .eRange) ∧
      (sessionFailCrc s .eRange).responses = s.responses ++ [⟨.eRange, 0⟩] ∧ Code.eRange ≠ .ok := ⟨rfl, rfl, rfl, by decide⟩
/-- ContextsAreIndependent: a command of each group. -/
theorem witness_contexts_hash :
    isHashCommand (.hPut 0x66) = true ∧
      exec (.hPut 0x66) (hashOpen .hex) = .next (respond ((hashOpen .hex).withHash ((hashOpen .hex).hashCtx.withLatch true 0xF)) .ok 0) :=
  ⟨rfl, rfl⟩
theorem witness_contexts_crc :
    isCrcCommand (.cPut 0x66) = true ∧
      exec (.cPut 0x66) (crcOpen .hex) = .next (respond ((crcOpen .hex).withCrc ((crcOpen .hex).crcCtx.withLatch true 0xF)) .ok 0) :=
  ⟨rfl, rfl⟩

/-- RoundFunctionSubstitutesThenRotates: a word and its substituted word (95_test_vectors.md 2.1). -/
theorem witness_substituted :
    ∀ r : Fin 8, (0x1E2B04B7 : Word).extractLsb' (4 * r.val) 4 = sbox r ((0x01234567 : Word).extractLsb' (4 * r.val) 4) := by
  decide
/-- KeyOrderPattern: where its two ranges meet. -/
theorem witness_key_order : (keyOrder 23).val = 7 ∧ (keyOrder 24).val = 7 ∧ (keyOrder 31).val = 0 := by decide
/-- PTransformPermutesBytes, its second half: two vectors with the same keys. -/
theorem witness_same_keys : pTransform countingBlock =
    pTransform #v[0x03020100, 0x07060504, 0x0B0A0908, 0x0F0E0D0C, 0x13121110, 0x17161514, 0x1B1A1918, 0x1F1E1D1C] := by
  decide

/-- StepKeepsSessionInvariants: a state in the middle of a HEX session, with a failed CRC session and a command to come. -/
def busyState : State :=
  presentFirst (((hashLatched 6 1).withCrc ((CrcCtx.opened .text).withCs .failed)).withErr .eRange) 0x11000031
theorem witness_invariant_hash : busyState.hashCtx.Inv :=
  ⟨by decide, by decide, by decide, by decide, by decide, fun h => absurd h (by decide),
    fun h => absurd h (by decide)⟩
theorem witness_invariant_crc : busyState.crcCtx.Inv :=
  ⟨by decide, by decide, by decide, by decide, by decide, by decide, fun h => absurd h (by decide), fun h => absurd h (by decide)⟩
theorem witness_invariant : busyState.Inv ∧ ∃ t, step busyState = .next t :=
  ⟨⟨witness_invariant_hash, witness_invariant_crc, by decide⟩, _, rfl⟩

/-- HexSessionEqualsRawSession: two pairs of digits, in both letter cases, in two open sessions. -/
theorem witness_hex_session :
    List.Forall₂ (fun (p : Half × Half) (x : Byte) => hexval p.1 = some (x.extractLsb' 4 4) ∧ hexval p.2 = some (x.extractLsb' 0 4))
      [(0x61, 0x46), (0x30, 0x39)] [0xAF, 0x09] ∧
    (hashOpen .hex).hashCtx.hs = .active ∧ (hashOpen .hex).hashCtx.hmode = .hex ∧ (hashOpen .hex).hashCtx.hnv = false ∧
    (hashOpen .raw).hashCtx.hs = .active ∧ (hashOpen .raw).hashCtx.hmode = .raw ∧
    (hashOpen .hex).hashCtx.h = (hashOpen .raw).hashCtx.h ∧ (hashOpen .hex).hashCtx.sum = (hashOpen .raw).hashCtx.sum ∧
    (hashOpen .hex).hashCtx.buf = (hashOpen .raw).hashCtx.buf ∧ (hashOpen .hex).hashCtx.cnt = (hashOpen .raw).hashCtx.cnt ∧
    (hashOpen .hex).hashCtx.cnt.toNat + ([0xAF, 0x09] : List Byte).length ≤ 2 ^ 61 - 1 := by
  refine ⟨.cons (by decide) (.cons (by decide) .nil), ?_⟩
  decide
/-- TextSessionEqualsRawExpansion: units of one, two and three bytes, beside the surrogates. -/
theorem witness_text_session :
    (∀ c ∈ ([0x41, 0x043F, 0xD7FF, 0xE000] : List Half), ¬ (0xD800 ≤ c ∧ c ≤ 0xDFFF)) ∧
    (hashOpen .text).hashCtx.hs = .active ∧ (hashOpen .text).hashCtx.hmode = .text ∧
    (hashOpen .raw).hashCtx.hs = .active ∧ (hashOpen .raw).hashCtx.hmode = .raw ∧
    (hashOpen .text).hashCtx.h = (hashOpen .raw).hashCtx.h ∧ (hashOpen .text).hashCtx.sum = (hashOpen .raw).hashCtx.sum ∧
    (hashOpen .text).hashCtx.buf = (hashOpen .raw).hashCtx.buf ∧ (hashOpen .text).hashCtx.cnt = (hashOpen .raw).hashCtx.cnt ∧
    (hashOpen .text).hashCtx.cnt.toNat + (([0x41, 0x043F, 0xD7FF, 0xE000] : List Half).flatMap expand).length ≤ 2 ^ 61 - 1 := by
  refine ⟨by simp, ?_⟩
  decide
/-- StreamingHashEqualsWholeMessageHash: a message of more than a block. -/
theorem witness_message_length : (List.replicate 33 (0x61 : Byte)).length ≤ 2 ^ 61 - 1 := by decide

/-! ## The long evaluations, last in the file so that nothing waits for them -/

theorem test_cipher_counting :
    encryptBlock 0x89ABCDEF 0x01234567
      #v[0x11111111, 0x22222222, 0x33333333, 0x44444444, 0x55555555, 0x66666666, 0x77777777, 0x88888888] =
      { left := 0xBE9454B0, right := 0xEB8A54B9 } := by decide +kernel
theorem test_compress : compress (Vector.replicate 8 0) countingBlock =
    #v[0x8437CD31, 0x879D9806, 0x0FF29E90, 0x5F2A257E, 0xDEF99361, 0x37A74FCB, 0xE9C8BAB5, 0x4F472117] := by
  decide +kernel
/-- The digest of the empty message. -/
theorem test_h_final_empty :
    (after (exec .hFinal (hashOpen .raw))).hashCtx.hout.toList =
      ascii "981e5f3ca30c841487830f84fb433e13ac1101569b9c13584ac483234cd656c0" := by decide +kernel

end Sys2Proof.Machine.Tests
end

section
/-! PROOFS. The step and the port (00_scope.md rule R12, 20_memory.md rule R70, 70_reset_and_hazards.md rule R211). The model keeps
the command stream and the responses in the state; here it is shown, command by command, that a command answers whatever these
two lists hold, that its answer does not depend on them, and that it takes one input and adds one response. -/

namespace Sys2Proof.Machine

/-! ## Replacing the port -/

/-- Replace the two lists of the port, and nothing of the spec's own state. -/
def State.withPort (s : State) (ins : List PortInput) (rs : List Response) : State :=
  { s with inputs := ins, responses := rs }

section withPort
variable (s : State) (ins : List PortInput) (rs : List Response)
@[simp] theorem State.withPort_hashCtx : (s.withPort ins rs).hashCtx = s.hashCtx := rfl
@[simp] theorem State.withPort_crcCtx : (s.withPort ins rs).crcCtx = s.crcCtx := rfl
@[simp] theorem State.withPort_err : (s.withPort ins rs).err = s.err := rfl
@[simp] theorem State.withPort_inputs : (s.withPort ins rs).inputs = ins := rfl
@[simp] theorem State.withPort_responses : (s.withPort ins rs).responses = rs := rfl
@[simp] theorem State.withPort_self : s.withPort s.inputs s.responses = s := rfl
end withPort

/-- Reading the index space does not look at the port: no entry of R45 is one of its lists. -/
@[simp] theorem readEntry_withPort (s : State) (ins : List PortInput) (rs : List Response) :
    readEntry (s.withPort ins rs) = readEntry s := by
  funext e
  cases e <;> rfl

@[simp] theorem memRead_withPort (s : State) (ins : List PortInput) (rs : List Response) (index : Half) :
    memRead (s.withPort ins rs) index = memRead s index := by
  simp only [memRead, readEntry_withPort]

/-! ## Commands that ignore the port -/

/-- From `s`, one next state `t` and one response `r` do for every content of the port: `f` answers `t`, has taken the first input
and has added `r`. -/
def IgnoresPortAt (f : State → Host.Outcome State Fault Refusal) (s : State) : Prop :=
  ∃ (t : State) (r : Response), ∀ ins rs, f (s.withPort ins rs) = .next (t.withPort ins.tail (rs ++ [r]))

/-- All that ends a command is `respond`, after an update `u` of the state that leaves the port alone. -/
theorem ignoresPortAt_of_respond {f : State → Host.Outcome State Fault Refusal} {s : State} (u : State) (code : Code)
    (data : Word) (h : ∀ ins rs, f (s.withPort ins rs) = .next (respond (u.withPort ins rs) code data)) :
    IgnoresPortAt f s :=
  ⟨u, { code := code, data := data }, h⟩

theorem ignoresPortAt_of_raise {f : State → Host.Outcome State Fault Refusal} {s : State} (code : Code)
    (h : ∀ ins rs, f (s.withPort ins rs) = .next (raise (s.withPort ins rs) code)) : IgnoresPortAt f s :=
  ignoresPortAt_of_respond (s.withErr (stickyErr s.err code)) code 0 h

theorem ignoresPortAt_of_sessionFailHash {f : State → Host.Outcome State Fault Refusal} {s : State} (code : Code)
    (h : ∀ ins rs, f (s.withPort ins rs) = .next (sessionFailHash (s.withPort ins rs) code)) : IgnoresPortAt f s :=
  ignoresPortAt_of_respond ((s.withHash (s.hashCtx.withHs .failed)).withErr (stickyErr s.err code)) code 0 h

theorem ignoresPortAt_of_sessionFailCrc {f : State → Host.Outcome State Fault Refusal} {s : State} (code : Code)
    (h : ∀ ins rs, f (s.withPort ins rs) = .next (sessionFailCrc (s.withPort ins rs) code)) : IgnoresPortAt f s :=
  ignoresPortAt_of_respond ((s.withCrc (s.crcCtx.withCs .failed)).withErr (stickyErr s.err code)) code 0 h

theorem ignoresPortAt_of_withHash {f : State → Host.Outcome State Fault Refusal} {s : State} (c : HashCtx)
    (h : ∀ ins rs, f (s.withPort ins rs) = .next (respond ((s.withPort ins rs).withHash c) .ok 0)) : IgnoresPortAt f s :=
  ignoresPortAt_of_respond (s.withHash c) .ok 0 h

theorem ignoresPortAt_of_withCrc {f : State → Host.Outcome State Fault Refusal} {s : State} (c : CrcCtx) (data : Word)
    (h : ∀ ins rs, f (s.withPort ins rs) = .next (respond ((s.withPort ins rs).withCrc c) .ok data)) : IgnoresPortAt f s :=
  ignoresPortAt_of_respond (s.withCrc c) .ok data h

theorem hashInit_ignoresPort (mode : HashMode) (s : State) : IgnoresPortAt (hashInit mode) s :=
  ignoresPortAt_of_withHash (HashCtx.opened mode) fun _ _ => rfl

theorem crcInit_ignoresPort (mode : CrcMode) (s : State) : IgnoresPortAt (crcInit mode) s :=
  ignoresPortAt_of_withCrc (CrcCtx.opened mode) 0 fun _ _ => rfl

theorem execHPut_ignoresPort (arg : Half) (s : State) : IgnoresPortAt (execHPut arg) s := by
  by_cases hs : s.hashCtx.hs = .active
  case neg => exact ignoresPortAt_of_raise .eState fun _ _ => by simp [execHPut, hs]
  cases hd : hashDatum s.hashCtx arg with
  | bad code => exact ignoresPortAt_of_sessionFailHash code fun _ _ => by simp [execHPut, hs, hd]
  | firstDigit d =>
    exact ignoresPortAt_of_withHash (s.hashCtx.withLatch true d) fun _ _ => by simp [execHPut, hs, hd]
  | bytes bs =>
    by_cases hl : s.hashCtx.cnt.toNat + bs.length > Config.maxMessageBytes
    · exact ignoresPortAt_of_sessionFailHash .eLength fun _ _ => by simp [execHPut, hs, hd, hl]
    · exact ignoresPortAt_of_withHash (absorbAll s.hashCtx.latchUsed bs) fun _ _ => by simp [execHPut, hs, hd, hl]

theorem execHFinal_ignoresPort (s : State) : IgnoresPortAt execHFinal s := by
  by_cases hs : s.hashCtx.hs = .active
  case neg => exact ignoresPortAt_of_raise .eState fun _ _ => by simp [execHFinal, hs]
  by_cases hl : s.hashCtx.hmode = .hex ∧ s.hashCtx.hnv = true
  · exact ignoresPortAt_of_sessionFailHash .eHex fun _ _ => by simp [execHFinal, hs, hl]
  · exact ignoresPortAt_of_withHash s.hashCtx.finished fun _ _ => by
      simp only [execHFinal, State.withPort_hashCtx, hs, hl, ne_eq, not_true_eq_false, if_false]

theorem execCPut_ignoresPort (arg : Half) (s : State) : IgnoresPortAt (execCPut arg) s := by
  by_cases hs : s.crcCtx.cs = .active
  case neg => exact ignoresPortAt_of_raise .eState fun _ _ => by simp [execCPut, hs]
  cases hd : crcDatum s.crcCtx arg with
  | bad code => exact ignoresPortAt_of_sessionFailCrc code fun _ _ => by simp [execCPut, hs, hd]
  | firstDigit d =>
    exact ignoresPortAt_of_withCrc (s.crcCtx.withLatch true d) 0 fun _ _ => by simp [execCPut, hs, hd]
  | bytes bs =>
    exact ignoresPortAt_of_withCrc (s.crcCtx.latchUsed.accumulate bs) 0 fun _ _ => by simp [execCPut, hs, hd]

theorem execCFinal_ignoresPort (s : State) : IgnoresPortAt execCFinal s := by
  by_cases hs : s.crcCtx.cs = .active
  case neg => exact ignoresPortAt_of_raise .eState fun _ _ => by simp [execCFinal, hs]
  by_cases hl : s.crcCtx.cmode = .hex ∧ s.crcCtx.cnv = true
  · exact ignoresPortAt_of_sessionFailCrc .eHex fun _ _ => by simp [execCFinal, hs, hl]
  · exact ignoresPortAt_of_withCrc s.crcCtx.finished s.crcCtx.finished.crc fun _ _ => by
      simp only [execCFinal, State.withPort_crcCtx, hs, hl, ne_eq, not_true_eq_false, if_false]

theorem execRd_ignoresPort (index : Half) (s : State) : IgnoresPortAt (execRd index) s := by
  cases hv : memRead s index with
  | some v => exact ignoresPortAt_of_respond s .ok v fun _ _ => by simp [execRd, hv]
  | none => exact ignoresPortAt_of_raise .eAddr fun _ _ => by simp [execRd, hv]

/-- Every command answers in every state, and does not look at the port while it does (R12, R70, R90). -/
theorem exec_ignoresPort (i : Instr) (s : State) : IgnoresPortAt (exec i) s := by
  cases i with
  | hInitRaw => exact hashInit_ignoresPort .raw s
  | hInitHex => exact hashInit_ignoresPort .hex s
  | hInitText => exact hashInit_ignoresPort .text s
  | hPut arg => exact execHPut_ignoresPort arg s
  | hFinal => exact execHFinal_ignoresPort s
  | cInitText => exact crcInit_ignoresPort .text s
  | cInitHex => exact crcInit_ignoresPort .hex s
  | cPut arg => exact execCPut_ignoresPort arg s
  | cFinal => exact execCFinal_ignoresPort s
  | rd index => exact execRd_ignoresPort index s

/-- Every command answers, and takes itself off the port. -/
theorem exec_total (i : Instr) (s : State) : ∃ t, exec i s = .next t ∧ t.inputs = s.inputs.tail := by
  obtain ⟨t, r, h⟩ := exec_ignoresPort i s
  exact ⟨t.withPort s.inputs.tail (s.responses ++ [r]), h s.inputs s.responses, rfl⟩

/-! ## The step by what stands at the port -/

theorem step_of_inputs_nil {s : State} (hi : s.inputs = []) : step s = .next s := by
  simp only [step, hi, portIdle]

theorem step_of_reset {s : State} {rest : List PortInput} (hi : s.inputs = .reset :: rest) :
    step s = .next (resetInput s) := by
  simp only [step, hi]

theorem step_of_command {s : State} {cw : Word} {rest : List PortInput} {i : Instr} (hi : s.inputs = .command cw :: rest)
    (hd : decode cw = .command i) : step s = exec i s := by
  simp only [step, hi, hd]

theorem step_of_illegal {s : State} {cw : Word} {rest : List PortInput} {why : DecodeReject}
    (hi : s.inputs = .command cw :: rest) (hd : decode cw = .illegal why) : step s = .next (illegalCommand s) := by
  simp only [step, hi, hd]

/-- A command word, legal or not, is answered and taken off the port. -/
theorem step_takes_command {s : State} {cw : Word} {rest : List PortInput} (hi : s.inputs = .command cw :: rest) :
    ∃ t, step s = .next t ∧ t.inputs = rest := by
  have htail : s.inputs.tail = rest := by rw [hi, List.tail_cons]
  cases hd : decode cw with
  | command i =>
    obtain ⟨t, ht, hin⟩ := exec_total i s
    exact ⟨t, (step_of_command hi hd).trans ht, hin.trans htail⟩
  | illegal why => exact ⟨illegalCommand s, step_of_illegal hi hd, htail⟩

/-- "`step` is total" (R211). -/
theorem step_total (s : State) : ∃ t, step s = .next t := by
  cases hi : s.inputs with
  | nil => exact ⟨s, step_of_inputs_nil hi⟩
  | cons input rest =>
    cases input with
    | reset => exact ⟨resetInput s, step_of_reset hi⟩
    | command cw =>
      obtain ⟨t, ht, -⟩ := step_takes_command hi
      exact ⟨t, ht⟩

/-! ## The statements -/

/-- Settles O7: a step takes its command off the port by `step_takes_command`, and `exec_ignoresPort` gives one next state and one
response for every content of the port. -/
theorem execIgnoresPortButTakesCommand : Obligations.ExecIgnoresPortButTakesCommand := by
  unfold Obligations.ExecIgnoresPortButTakesCommand
  refine ⟨fun s cw rest hi => step_takes_command hi, fun i s t ins rs ht => ?_⟩
  obtain ⟨u, r, hu⟩ := exec_ignoresPort i s
  have hself : exec i s = .next (u.withPort s.inputs.tail (s.responses ++ [r])) := hu s.inputs s.responses
  obtain rfl : u.withPort s.inputs.tail (s.responses ++ [r]) = t := by simpa using hself.symm.trans ht
  exact ⟨rfl, r, rfl, hu ins rs⟩

/-- Settles O9, by what stands at the port. -/
theorem everyStateSteps : Obligations.EveryStateSteps := by
  unfold Obligations.EveryStateSteps
  exact fun s => ⟨step_total s, step_of_inputs_nil⟩

end Sys2Proof.Machine
end

section
/-! PROOFS. What a command leaves behind, once for all ten commands and for an illegal word: it raises an error, fails the session it
addresses, writes one context, or only reads (30_encoding.md rule R89, 60_exceptions.md rules R182, R183). What holds over every step
follows by cases on this and does not go through the meanings again. -/

namespace Sys2Proof.Machine

theorem hashDatum_bad_ne_ok {c : HashCtx} {arg : Half} {code : Code} (h : hashDatum c arg = .bad code) : code ≠ .ok := by
  obtain ⟨-, -, rfl⟩ | ⟨-, -, rfl⟩ | ⟨-, -, rfl⟩ := hashDatum_bad h <;> decide

theorem crcDatum_bad_ne_ok {c : CrcCtx} {arg : Half} {code : Code} (h : crcDatum c arg = .bad code) : code ≠ .ok := by
  obtain ⟨-, -, rfl⟩ | ⟨-, -, rfl⟩ := crcDatum_bad h <;> decide

/-- The hash contexts that a successful hash command can leave of `c` (R140, R141, R146). -/
inductive HashWrite (c : HashCtx) : HashCtx → Prop where
  | opened (mode : HashMode) : HashWrite c (HashCtx.opened mode)
  | latched {arg : Half} {d : Nibble} (hs : c.hs = .active) (hd : hashDatum c arg = .firstDigit d) :
      HashWrite c (c.withLatch true d)
  | absorbed {arg : Half} {bs : List Byte} (hs : c.hs = .active) (hd : hashDatum c arg = .bytes bs)
      (room : ¬ c.cnt.toNat + bs.length > Config.maxMessageBytes) : HashWrite c (absorbAll c.latchUsed bs)
  | finished (hs : c.hs = .active) (paired : ¬ (c.hmode = .hex ∧ c.hnv = true)) : HashWrite c c.finished

/-- The CRC contexts that a successful CRC command can leave of `c` (R162, R163, R164). -/
inductive CrcWrite (c : CrcCtx) : CrcCtx → Prop where
  | opened (mode : CrcMode) : CrcWrite c (CrcCtx.opened mode)
  | latched {arg : Half} {d : Nibble} (hs : c.cs = .active) (hd : crcDatum c arg = .firstDigit d) :
      CrcWrite c (c.withLatch true d)
  | accumulated {arg : Half} {bs : List Byte} (hs : c.cs = .active) (hd : crcDatum c arg = .bytes bs) :
      CrcWrite c (c.latchUsed.accumulate bs)
  | finished (hs : c.cs = .active) (paired : ¬ (c.cmode = .hex ∧ c.cnv = true)) : CrcWrite c c.finished

/-- The states in which a command presented in `s` can end, each by the shared operation that ends it. The datum that answers a CRC
command is left open: of all of them only C_FINAL answers one that is not 0 (R164). -/
inductive CommandEffect (s : State) : State → Prop where
  | raised {code : Code} (hc : code ≠ .ok) : CommandEffect s (raise s code)
  | hashFailed {code : Code} (hs : s.hashCtx.hs = .active) (hc : code ≠ .ok) : CommandEffect s (sessionFailHash s code)
  | crcFailed {code : Code} (hs : s.crcCtx.cs = .active) (hc : code ≠ .ok) : CommandEffect s (sessionFailCrc s code)
  | hashWritten {c : HashCtx} (hw : HashWrite s.hashCtx c) : CommandEffect s (respond (s.withHash c) .ok 0)
  | crcWritten {c : CrcCtx} (hw : CrcWrite s.crcCtx c) (data : Word) : CommandEffect s (respond (s.withCrc c) .ok data)
  | read {index : Half} {data : Word} (hv : memRead s index = some data) : CommandEffect s (respond s .ok data)

theorem hashInit_effect {mode : HashMode} {s t : State} (h : hashInit mode s = .next t) : CommandEffect s t := by
  obtain rfl := hashInit_next h
  exact .hashWritten (.opened mode)

theorem crcInit_effect {mode : CrcMode} {s t : State} (h : crcInit mode s = .next t) : CommandEffect s t := by
  obtain rfl := crcInit_next h
  exact .crcWritten (.opened mode) 0

theorem execHPut_effect {arg : Half} {s t : State} (h : execHPut arg s = .next t) : CommandEffect s t := by
  obtain ⟨-, rfl⟩ | ⟨hs, code, hd, rfl⟩ | ⟨hs, d, hd, rfl⟩ | ⟨hs, bs, -, -, rfl⟩ | ⟨hs, bs, hd, room, rfl⟩ :=
    execHPut_cases h
  · exact .raised (by decide)
  · exact .hashFailed hs (hashDatum_bad_ne_ok hd)
  · exact .hashWritten (.latched hs hd)
  · exact .hashFailed hs (by decide)
  · exact .hashWritten (.absorbed hs hd room)

theorem execHFinal_effect {s t : State} (h : execHFinal s = .next t) : CommandEffect s t := by
  obtain ⟨-, rfl⟩ | ⟨hs, -, rfl⟩ | ⟨hs, paired, rfl⟩ := execHFinal_cases h
  · exact .raised (by decide)
  · exact .hashFailed hs (by decide)
  · exact .hashWritten (.finished hs paired)

theorem execCPut_effect {arg : Half} {s t : State} (h : execCPut arg s = .next t) : CommandEffect s t := by
  obtain ⟨-, rfl⟩ | ⟨hs, code, hd, rfl⟩ | ⟨hs, d, hd, rfl⟩ | ⟨hs, bs, hd, rfl⟩ := execCPut_cases h
  · exact .raised (by decide)
  · exact .crcFailed hs (crcDatum_bad_ne_ok hd)
  · exact .crcWritten (.latched hs hd) 0
  · exact .crcWritten (.accumulated hs hd) 0

theorem execCFinal_effect {s t : State} (h : execCFinal s = .next t) : CommandEffect s t := by
  obtain ⟨-, rfl⟩ | ⟨hs, -, rfl⟩ | ⟨hs, paired, rfl⟩ := execCFinal_cases h
  · exact .raised (by decide)
  · exact .crcFailed hs (by decide)
  · exact .crcWritten (.finished hs paired) _

theorem execRd_effect {index : Half} {s t : State} (h : execRd index s = .next t) : CommandEffect s t := by
  obtain ⟨v, hv, rfl⟩ | ⟨-, rfl⟩ := execRd_cases h
  · exact .read hv
  · exact .raised (by decide)

theorem exec_effect {i : Instr} {s t : State} (h : exec i s = .next t) : CommandEffect s t := by
  cases i with
  | hInitRaw | hInitHex | hInitText => exact hashInit_effect h
  | hPut arg => exact execHPut_effect h
  | hFinal => exact execHFinal_effect h
  | cInitText | cInitHex => exact crcInit_effect h
  | cPut arg => exact execCPut_effect h
  | cFinal => exact execCFinal_effect h
  | rd index => exact execRd_effect h

/-- What a step leaves: the same state while it waits, the reset state, or the effect of a command. -/
theorem step_effect {s t : State} (h : step s = .next t) :
    (s.inputs = [] ∧ t = s) ∨ (∃ rest, s.inputs = .reset :: rest ∧ t = resetInput s) ∨ CommandEffect s t := by
  obtain hwait | hreset | ⟨_, _, _, -, -, he⟩ | ⟨_, _, _, -, -, rfl⟩ := step_cases h
  · exact .inl hwait
  · exact .inr (.inl hreset)
  · exact .inr (.inr (exec_effect he))
  · exact .inr (.inr (.raised (by decide)))

/-! ## ERR -/

/-- OK is no error: it leaves ERR as it is. -/
@[simp] theorem stickyErr_of_ok (old : Code) : stickyErr old .ok = old := by
  by_cases ho : old = .ok
  · rw [ho, stickyErr_ok]
  · exact stickyErr_of_ne ho .ok

/-- A command adds one response, and ERR takes its code as it takes the code of an error. -/
theorem CommandEffect.err_takes_code {s t : State} (h : CommandEffect s t) :
    ∃ r, t.responses = s.responses ++ [r] ∧ t.err = stickyErr s.err r.code := by
  cases h with
  | raised _ | hashFailed _ _ | crcFailed _ _ => exact ⟨_, rfl, rfl⟩
  | hashWritten _ | crcWritten _ _ | read _ => exact ⟨_, rfl, (stickyErr_of_ok s.err).symm⟩

/-- Settles O32: a step that is no reset waits or is a command, and a command's response code goes into ERR by `stickyErr`. -/
theorem errKeepsFirstError : Obligations.ErrKeepsFirstError := by
  unfold Obligations.ErrKeepsFirstError
  intro s t h hinput
  obtain ⟨-, rfl⟩ | ⟨_, hreset, -⟩ | heff := step_effect h
  · exact ⟨fun _ => rfl, fun hok => .inl ⟨rfl, hok⟩⟩
  · exact absurd (by rw [hreset, List.head?_cons]) hinput
  · obtain ⟨r, hresp, herr⟩ := heff.err_takes_code
    exact ⟨fun hne => herr.trans (stickyErr_of_ne hne r.code), fun hok => .inr ⟨r, hresp, by rw [herr, hok, stickyErr_ok]⟩⟩

end Sys2Proof.Machine
end

section
/-! PROOFS. The invariant between commands (`State.Inv`): of the hash context, of the CRC context, and of the machine
(10_state.md rules R25 to R35). Each context write of `HashWrite` and `CrcWrite` keeps its context's part; a step then keeps the
whole by cases on `CommandEffect`. -/

namespace Sys2Proof.Machine

/-! ## The pending buffer -/

/-- "`BUF[j] = 0` for every `j >= CNT mod 32`" (R25), the first clause of `HashCtx.Inv`. -/
def HashCtx.BufZeroBeyondFill (c : HashCtx) : Prop := ∀ j : Fin 32, c.cnt.toNat % 32 ≤ j.val → c.buf[j] = 0

/-- The byte goes to the first zero place, or fills the buffer, which then is zeroed. -/
theorem HashCtx.BufZeroBeyondFill.absorb {c : HashCtx} (h : c.BufZeroBeyondFill) (x : Byte) :
    (absorb c x).BufZeroBeyondFill := by
  intro j hj
  rw [absorb_cnt, cnt_succ_mod_32] at hj
  obtain ⟨hfill, e⟩ | ⟨-, e⟩ := absorb_cases c x
  · have hlt : c.cnt.toNat % 32 < j.val := by omega
    simpa [e, Vector.getElem_set, hlt.ne] using h j hlt.le
  · simp [e]

theorem HashCtx.BufZeroBeyondFill.absorbAll {c : HashCtx} (h : c.BufZeroBeyondFill) (bs : List Byte) :
    (absorbAll c bs).BufZeroBeyondFill := by
  induction bs generalizing c with
  | nil => exact h
  | cons x bs ih => exact ih (h.absorb x)

/-! ## The hash context -/

theorem HashCtx.reset_inv : HashCtx.reset.Inv where
  buf_zero_beyond_fill j _ := by simp [HashCtx.reset]
  latch_clear _ := rfl
  latch_only_in_hex := by simp [HashCtx.reset]
  latch_clear_when_done _ := rfl
  hout_zero_unless_done _ := rfl
  hout_is_digest_text := by simp [HashCtx.reset]
  idle_is_reset _ := rfl

/-- In an ACTIVE session the clauses about DONE and IDLE are void. -/
theorem HashCtx.inv_of_active {c : HashCtx} (hs : c.hs = .active) (hbuf : c.BufZeroBeyondFill)
    (hclear : c.hnv = false → c.hnib = 0) (hhex : c.hnv = true → c.hmode = .hex)
    (hout : c.hout = Vector.replicate 64 0) : c.Inv where
  buf_zero_beyond_fill := hbuf
  latch_clear := hclear
  latch_only_in_hex := hhex
  latch_clear_when_done := by simp [hs]
  hout_zero_unless_done _ := hout
  hout_is_digest_text := by simp [hs]
  idle_is_reset := by simp [hs]

theorem HashCtx.opened_inv (mode : HashMode) : (HashCtx.opened mode).Inv :=
  HashCtx.inv_of_active rfl (fun j _ => by simp) (fun _ => rfl) (by simp) rfl

theorem HashCtx.Inv.hout_zero_of_active {c : HashCtx} (h : c.Inv) (hs : c.hs = .active) :
    c.hout = Vector.replicate 64 0 := h.hout_zero_unless_done (by simp [hs])

/-- Outside HEX mode the latch is clear already, so clearing it in HEX mode is clearing it. -/
theorem HashCtx.Inv.latchUsed_eq {c : HashCtx} (h : c.Inv) : c.latchUsed = c.withLatch false 0 := by
  by_cases hm : c.hmode = .hex
  · exact if_pos hm
  · have hnv : c.hnv = false := Bool.eq_false_iff.mpr fun hnv => hm (h.latch_only_in_hex hnv)
    have hself : c = c.withLatch c.hnv c.hnib := rfl
    rw [HashCtx.latchUsed, if_neg hm, ← hnv, ← h.latch_clear hnv]
    exact hself

theorem HashCtx.Inv.failed {c : HashCtx} (h : c.Inv) (hs : c.hs = .active) : (c.withHs .failed).Inv where
  buf_zero_beyond_fill := h.buf_zero_beyond_fill
  latch_clear := h.latch_clear
  latch_only_in_hex := h.latch_only_in_hex
  latch_clear_when_done := by simp
  hout_zero_unless_done _ := h.hout_zero_of_active hs
  hout_is_digest_text := by simp
  idle_is_reset := by simp

theorem HashCtx.Inv.latched {c : HashCtx} (h : c.Inv) (hs : c.hs = .active) (hm : c.hmode = .hex) (d : Nibble) :
    (c.withLatch true d).Inv :=
  HashCtx.inv_of_active hs h.buf_zero_beyond_fill (by simp) (fun _ => hm) (h.hout_zero_of_active hs)

theorem HashCtx.Inv.absorbed {c : HashCtx} (h : c.Inv) (hs : c.hs = .active) (bs : List Byte) :
    (absorbAll c.latchUsed bs).Inv := by
  have hbuf : (c.withLatch false 0).BufZeroBeyondFill := h.buf_zero_beyond_fill
  rw [h.latchUsed_eq]
  exact HashCtx.inv_of_active (by simpa using hs) (hbuf.absorbAll bs) (by simp) (by simp)
    (by simpa using h.hout_zero_of_active hs)

theorem HashCtx.Inv.finished {c : HashCtx} (h : c.Inv) (paired : ¬ (c.hmode = .hex ∧ c.hnv = true)) : c.finished.Inv where
  buf_zero_beyond_fill := by simpa using h.buf_zero_beyond_fill
  latch_clear := by simpa using h.latch_clear
  latch_only_in_hex := by simpa using h.latch_only_in_hex
  latch_clear_when_done _ := by
    rw [finished_hnv]
    exact Bool.eq_false_iff.mpr fun hnv => paired ⟨h.latch_only_in_hex hnv, hnv⟩
  hout_zero_unless_done hne := absurd (finished_hs c) hne
  hout_is_digest_text _ := finished_hout c
  idle_is_reset := by simp

theorem HashWrite.keeps_inv {c c' : HashCtx} (hw : HashWrite c c') (h : c.Inv) : c'.Inv := by
  cases hw with
  | opened mode => exact HashCtx.opened_inv mode
  | latched hs hd => exact h.latched hs (hashDatum_firstDigit hd).1 _
  | absorbed hs _ _ => exact h.absorbed hs _
  | finished _ paired => exact h.finished paired

/-- A successful command leaves no session failed. -/
theorem HashWrite.hs_ne_failed {c c' : HashCtx} (hw : HashWrite c c') (h : c.Inv) : c'.hs ≠ .failed := by
  cases hw with
  | opened _ | finished _ _ => simp
  | latched hs _ => simp [hs]
  | absorbed hs _ _ => simp [h.latchUsed_eq, hs]

/-! ## The CRC text -/

theorem significantDigits_le (v : Word) : significantDigits v ≤ 8 := by
  cases hf : (List.range' 1 8).find? fun n => v.toNat < 16 ^ n with
  | none => simp [significantDigits, hf]
  | some n =>
    have hmem := List.mem_of_find?_eq_some hf
    rw [List.mem_range'_1] at hmem
    rw [significantDigits, hf, Option.getD_some]
    omega

theorem renderVar_coutlen_toNat (v : Word) : (renderVar v).coutlen.toNat = significantDigits v := by
  have := significantDigits_le v
  rw [renderVar, BitVec.toNat_ofNat]
  omega

/-- Either rendering is 8 characters at most, with zeros beyond its end (R34). -/
theorem renderCrc_coutlen_le (mode : CrcMode) (v : Word) : (renderCrc mode v).coutlen.toNat ≤ 8 := by
  cases mode with
  | text => exact (renderVar_coutlen_toNat v).trans_le (significantDigits_le v)
  | hex => exact le_refl 8

theorem renderCrc_zero_beyond_len (mode : CrcMode) (v : Word) (j : Fin 8) (hj : (renderCrc mode v).coutlen.toNat ≤ j.val) :
    (renderCrc mode v).cout[j] = 0 := by
  cases mode with
  | text =>
    have hlen : significantDigits v ≤ j.val := (renderVar_coutlen_toNat v).symm.trans_le hj
    simp [renderCrc, renderVar, hlen.not_gt]
  | hex => exact absurd hj j.isLt.not_ge

/-! ## The CRC context -/

section finished
variable (c : CrcCtx)
@[simp] theorem CrcCtx.finished_cs : c.finished.cs = .done := rfl
@[simp] theorem CrcCtx.finished_cmode : c.finished.cmode = c.cmode := rfl
@[simp] theorem CrcCtx.finished_cnv : c.finished.cnv = c.cnv := rfl
@[simp] theorem CrcCtx.finished_cnib : c.finished.cnib = c.cnib := rfl
theorem CrcCtx.finished_cout : c.finished.cout = (renderCrc c.cmode c.finished.crc).cout := rfl
theorem CrcCtx.finished_coutlen : c.finished.coutlen = (renderCrc c.cmode c.finished.crc).coutlen := rfl
end finished

theorem CrcCtx.reset_inv : CrcCtx.reset.Inv where
  coutlen_le := by simp [CrcCtx.reset]
  cout_zero_beyond_len j _ := by simp [CrcCtx.reset]
  latch_clear _ := rfl
  latch_only_in_hex := by simp [CrcCtx.reset]
  latch_clear_when_done _ := rfl
  cout_empty_unless_done _ := rfl
  cout_is_text := by simp [CrcCtx.reset]
  idle_is_reset _ := rfl

theorem CrcCtx.Inv.coutlen_zero_of_active {c : CrcCtx} (h : c.Inv) (hs : c.cs = .active) : c.coutlen = 0 :=
  h.cout_empty_unless_done (by simp [hs])

/-- Without a result COUT is empty, so all of it is zero. -/
theorem CrcCtx.Inv.cout_zero_of_active {c : CrcCtx} (h : c.Inv) (hs : c.cs = .active) (j : Fin 8) : c.cout[j] = 0 :=
  h.cout_zero_beyond_len j (by simp [h.coutlen_zero_of_active hs])

/-- In an ACTIVE session the clauses about DONE and IDLE are void. -/
theorem CrcCtx.inv_of_active {c : CrcCtx} (hs : c.cs = .active) (hlen : c.coutlen = 0) (hcout : ∀ j : Fin 8, c.cout[j] = 0)
    (hclear : c.cnv = false → c.cnib = 0) (hhex : c.cnv = true → c.cmode = .hex) : c.Inv where
  coutlen_le := by simp [hlen]
  cout_zero_beyond_len j _ := hcout j
  latch_clear := hclear
  latch_only_in_hex := hhex
  latch_clear_when_done := by simp [hs]
  cout_empty_unless_done _ := hlen
  cout_is_text := by simp [hs]
  idle_is_reset := by simp [hs]

theorem CrcCtx.opened_inv (mode : CrcMode) : (CrcCtx.opened mode).Inv :=
  CrcCtx.inv_of_active rfl rfl (fun j => by simp) (fun _ => rfl) (by simp)

/-- Outside HEX mode the latch is clear already, so clearing it in HEX mode is clearing it. -/
theorem CrcCtx.Inv.latchUsed_eq {c : CrcCtx} (h : c.Inv) : c.latchUsed = c.withLatch false 0 := by
  by_cases hm : c.cmode = .hex
  · exact if_pos hm
  · have hnv : c.cnv = false := Bool.eq_false_iff.mpr fun hnv => hm (h.latch_only_in_hex hnv)
    have hself : c = c.withLatch c.cnv c.cnib := rfl
    rw [CrcCtx.latchUsed, if_neg hm, ← hnv, ← h.latch_clear hnv]
    exact hself

theorem CrcCtx.Inv.failed {c : CrcCtx} (h : c.Inv) (hs : c.cs = .active) : (c.withCs .failed).Inv where
  coutlen_le := h.coutlen_le
  cout_zero_beyond_len := h.cout_zero_beyond_len
  latch_clear := h.latch_clear
  latch_only_in_hex := h.latch_only_in_hex
  latch_clear_when_done := by simp
  cout_empty_unless_done _ := h.coutlen_zero_of_active hs
  cout_is_text := by simp
  idle_is_reset := by simp

theorem CrcCtx.Inv.latched {c : CrcCtx} (h : c.Inv) (hs : c.cs = .active) (hm : c.cmode = .hex) (d : Nibble) :
    (c.withLatch true d).Inv :=
  CrcCtx.inv_of_active hs (h.coutlen_zero_of_active hs) (h.cout_zero_of_active hs) (by simp) (fun _ => hm)

theorem CrcCtx.Inv.accumulated {c : CrcCtx} (h : c.Inv) (hs : c.cs = .active) (bs : List Byte) :
    (c.latchUsed.accumulate bs).Inv := by
  rw [h.latchUsed_eq]
  exact CrcCtx.inv_of_active hs (h.coutlen_zero_of_active hs) (h.cout_zero_of_active hs) (by simp) (by simp)

theorem CrcCtx.Inv.finished {c : CrcCtx} (h : c.Inv) (paired : ¬ (c.cmode = .hex ∧ c.cnv = true)) : c.finished.Inv where
  coutlen_le := renderCrc_coutlen_le c.cmode c.finished.crc
  cout_zero_beyond_len := renderCrc_zero_beyond_len c.cmode c.finished.crc
  latch_clear := h.latch_clear
  latch_only_in_hex := h.latch_only_in_hex
  latch_clear_when_done _ := Bool.eq_false_iff.mpr fun hnv => paired ⟨h.latch_only_in_hex hnv, hnv⟩
  cout_empty_unless_done hne := absurd (CrcCtx.finished_cs c) hne
  cout_is_text _ := ⟨CrcCtx.finished_cout c, CrcCtx.finished_coutlen c⟩
  idle_is_reset := by simp

theorem CrcWrite.keeps_inv {c c' : CrcCtx} (hw : CrcWrite c c') (h : c.Inv) : c'.Inv := by
  cases hw with
  | opened mode => exact CrcCtx.opened_inv mode
  | latched hs hd => exact h.latched hs (crcDatum_firstDigit hd).1 _
  | accumulated hs _ => exact h.accumulated hs _
  | finished _ paired => exact h.finished paired

/-- A successful command leaves no session failed. -/
theorem CrcWrite.cs_ne_failed {c c' : CrcCtx} (hw : CrcWrite c c') (h : c.Inv) : c'.cs ≠ .failed := by
  cases hw with
  | opened _ | finished _ _ => simp
  | latched hs _ => simp [hs]
  | accumulated hs _ => simp [h.latchUsed_eq, hs]

/-! ## The machine -/

/-- The invariant looks at the contexts and ERR only, and with ERR set it asks nothing of the two sessions together. -/
theorem State.inv_of_err_ne_ok {s : State} (hhash : s.hashCtx.Inv) (hcrc : s.crcCtx.Inv) (herr : s.err ≠ .ok) : s.Inv :=
  ⟨hhash, hcrc, fun _ => herr⟩

theorem CommandEffect.keeps_inv {s t : State} (he : CommandEffect s t) (h : s.Inv) : t.Inv := by
  cases he with
  | raised hc => exact State.inv_of_err_ne_ok h.hash h.crc (stickyErr_ne_ok hc s.err)
  | hashFailed hs hc => exact State.inv_of_err_ne_ok (h.hash.failed hs) h.crc (stickyErr_ne_ok hc s.err)
  | crcFailed hs hc => exact State.inv_of_err_ne_ok h.hash (h.crc.failed hs) (stickyErr_ne_ok hc s.err)
  | hashWritten hw =>
    exact ⟨hw.keeps_inv h.hash, h.crc, fun hf => h.failed_is_recorded (.inr (hf.resolve_left (hw.hs_ne_failed h.hash)))⟩
  | crcWritten hw _ =>
    exact ⟨h.hash, hw.keeps_inv h.crc, fun hf => h.failed_is_recorded (.inl (hf.resolve_right (hw.cs_ne_failed h.crc)))⟩
  | read _ => exact ⟨h.hash, h.crc, h.failed_is_recorded⟩

/-- With both contexts at their reset values no session is failed, whatever the port holds. -/
theorem State.inv_of_reset_contexts {s : State} (hhash : s.hashCtx = HashCtx.reset) (hcrc : s.crcCtx = CrcCtx.reset) :
    s.Inv where
  hash := hhash ▸ HashCtx.reset_inv
  crc := hcrc ▸ CrcCtx.reset_inv
  failed_is_recorded := by simp [hhash, hcrc, HashCtx.reset, CrcCtx.reset]

/-- Settles O54: a step waits, resets, or has the effect of a command, which keeps the invariant by `CommandEffect.keeps_inv`. -/
theorem stepKeepsSessionInvariants : Obligations.StepKeepsSessionInvariants := by
  unfold Obligations.StepKeepsSessionInvariants
  intro s t hinv hstep
  obtain ⟨-, rfl⟩ | ⟨_, -, rfl⟩ | heff := step_effect hstep
  · exact hinv
  · exact State.inv_of_reset_contexts rfl rfl
  · exact heff.keeps_inv hinv

/-- Settles O55, by the invariant of the two reset contexts. -/
theorem resetMeetsSessionInvariants : Obligations.ResetMeetsSessionInvariants := by
  unfold Obligations.ResetMeetsSessionInvariants
  exact ⟨State.inv_of_reset_contexts rfl rfl, rfl⟩

end Sys2Proof.Machine
end

section
/-! PROOFS. The index space as RD shows it (10_state.md rules R36, R45, R50; 20_memory.md rule R63): the bit fields of STATUS and ERR,
the packing of BUFW, and the map itself, from the entries that `entryAt` names. -/

namespace Sys2Proof.Machine

/-! ## STATUS and ERR -/

section statusWord
variable (h : HashCtx) (c : CrcCtx)

/-- The fields of the hash session stand in the low half of STATUS (R36). -/
theorem statusWord_hash_fields :
    (statusWord h c).extractLsb' 0 2 = sessionBits h.hs ∧ (statusWord h c).extractLsb' 2 2 = hashModeBits h.hmode ∧
      (statusWord h c).extractLsb' 4 1 = BitVec.ofBool h.hnv ∧ (statusWord h c).extractLsb' 8 4 = h.hnib := by
  simp (disch := decide) only [statusWord, BitVec.extractLsb'_append_eq_of_le, BitVec.extractLsb'_append_eq_of_add_le,
    BitVec.extractLsb'_eq_self, Nat.reduceSub, and_self]

/-- The fields of the CRC session stand above those of the hash session (R36). -/
theorem statusWord_crc_fields :
    (statusWord h c).extractLsb' 12 2 = sessionBits c.cs ∧ (statusWord h c).extractLsb' 14 1 = crcModeBits c.cmode ∧
      (statusWord h c).extractLsb' 15 1 = BitVec.ofBool c.cnv ∧ (statusWord h c).extractLsb' 16 4 = c.cnib ∧
      (statusWord h c).extractLsb' 20 4 = c.coutlen := by
  simp (disch := decide) only [statusWord, BitVec.extractLsb'_append_eq_of_le, BitVec.extractLsb'_append_eq_of_add_le,
    BitVec.extractLsb'_eq_self, Nat.reduceSub, and_self]

/-- Bits 7:5 and 31:24 of STATUS "read as 0" (R36). -/
theorem statusWord_reserved_fields :
    (statusWord h c).extractLsb' 5 3 = 0 ∧ (statusWord h c).extractLsb' 24 8 = 0 := by
  simp (disch := decide) only [statusWord, BitVec.extractLsb'_append_eq_of_le, BitVec.extractLsb'_append_eq_of_add_le,
    BitVec.extractLsb'_eq_self, Nat.reduceSub, and_self]

end statusWord

/-- A nibble zero-extended to a word is in bits 3:0, with 0 above. -/
theorem extractLsb'_setWidth_nibble (n : Nibble) :
    (n.setWidth 32).extractLsb' 0 4 = n ∧ (n.setWidth 32).extractLsb' 4 28 = 0 := by
  constructor
  · rw [BitVec.extractLsb'_setWidth_of_le (by decide), BitVec.extractLsb'_eq_self]
  · apply BitVec.eq_of_getLsbD_eq
    intro i _
    simp

theorem memRead_status (s : State) : memRead s 0x0000 = some (statusWord s.hashCtx s.crcCtx) :=
  memRead_of_entryAt entryAt_status

theorem memRead_err (s : State) : memRead s 0x0001 = some ((codeBits s.err).setWidth 32) :=
  memRead_of_entryAt entryAt_err

/-- Settles O29: the two entries read as `statusWord` and the extended ERR, whose fields the lemmas above give; the numbers of the
states, modes and codes are the equations of their definitions. -/
theorem statusAndErrFields : Obligations.StatusAndErrFields := by
  unfold Obligations.StatusAndErrFields
  refine ⟨fun s => ⟨_, _, memRead_status s, memRead_err s, ?_⟩, ⟨rfl, rfl, rfl, rfl⟩, ⟨rfl, rfl, rfl⟩, ⟨rfl, rfl⟩,
    ⟨rfl, rfl, rfl, rfl, rfl, rfl, rfl, rfl⟩⟩
  obtain ⟨hhs, hhmode, hhnv, hhnib⟩ := statusWord_hash_fields s.hashCtx s.crcCtx
  obtain ⟨hcs, hcmode, hcnv, hcnib, hcoutlen⟩ := statusWord_crc_fields s.hashCtx s.crcCtx
  obtain ⟨hmid, htop⟩ := statusWord_reserved_fields s.hashCtx s.crcCtx
  obtain ⟨herr, habove⟩ := extractLsb'_setWidth_nibble (codeBits s.err)
  exact ⟨hhs, hhmode, hhnv, hmid, hhnib, hcs, hcmode, hcnv, hcnib, hcoutlen, htop, herr, habove⟩

/-! ## The map -/

/-- "`b0 | b1 << 8 | b2 << 16 | b3 << 24`" (R60, R63): at each bit only the byte that stands there counts, since a byte
has no bit from 8 on. -/
theorem packBytes_eq_or_shifts (b0 b1 b2 b3 : Byte) :
    packBytes b0 b1 b2 b3 =
      b0.setWidth 32 ||| b1.setWidth 32 <<< 8 ||| b2.setWidth 32 <<< 16 ||| b3.setWidth 32 <<< 24 := by
  have no_bit_from_8_on (b : Byte) {k : Nat} (hk : 8 ≤ k) : b.getLsbD k = false := BitVec.getLsbD_of_ge b k hk
  apply BitVec.eq_of_getLsbD_eq
  intro i hi
  simp only [packBytes_getLsbD, BitVec.getLsbD_or, BitVec.getLsbD_shiftLeft, BitVec.getLsbD_setWidth]
  grind

/-- The unmapped ranges of R45 are where there is no entry. -/
theorem isUnmappedIndex_iff (index : Half) : IsUnmappedIndex index ↔ entryAt index = none := by
  rw [entryAt_eq_none]
  rfl

/-- Settles O27, entry by entry: `entryAt` names the entry at the index, and BUFW is packed as `packBytes_eq_or_shifts` says. -/
theorem indexSpaceMap : Obligations.IndexSpaceMap := by
  unfold Obligations.IndexSpaceMap
  intro s
  have bufw (i : Fin 8) := (memRead_of_entryAt (s := s) (entryAt_bufw i)).trans
    (congrArg some ((blockOfBuf_getElem s.hashCtx.buf i.val i.isLt).trans (packBytes_eq_or_shifts _ _ _ _)))
  exact ⟨memRead_status s, memRead_err s, fun i => memRead_of_entryAt (entryAt_h i),
    fun i => memRead_of_entryAt (entryAt_sum i), bufw, memRead_of_entryAt entryAt_cntLo,
    memRead_of_entryAt entryAt_cntHi, memRead_of_entryAt entryAt_crc, fun j => memRead_of_entryAt (entryAt_hout j),
    fun j => memRead_of_entryAt (entryAt_cout j), fun i => memRead_of_entryAt (entryAt_t1 i),
    fun i => memRead_of_entryAt (entryAt_t2 i), fun i => memRead_of_entryAt (entryAt_t3 i),
    fun i => memRead_of_entryAt (entryAt_t4 i), fun i => memRead_of_entryAt (entryAt_crctab i),
    fun r c => memRead_of_entryAt (entryAt_sbox r c), fun index => (isUnmappedIndex_iff index).trans memRead_eq_none.symm⟩

/-! ## The reset values -/

/-- Every place of a zeroed vector, such as H, BUF and HOUT after reset, holds 0. -/
theorem replicate_zero_getElem {w n : Nat} (i : Fin n) : (Vector.replicate n (0 : BitVec w))[i] = 0 :=
  Vector.getElem_replicate i.isLt

/-- Settles O11: the vectors are zeroed, the other elements and the table entries are as their definitions write them. -/
theorem resetValues : Obligations.ResetValues := by
  unfold Obligations.ResetValues
  exact ⟨fun i => ⟨replicate_zero_getElem i, replicate_zero_getElem i⟩, replicate_zero_getElem, rfl, rfl, rfl, rfl, rfl,
    replicate_zero_getElem, rfl, rfl, rfl, rfl, rfl, replicate_zero_getElem, rfl, rfl,
    fun _ => ⟨rfl, rfl, rfl, rfl, rfl⟩, fun _ _ => rfl⟩

end Sys2Proof.Machine
end

section
/-! PROOFS. The equations of the hash and the CRC commands, one for each way a command can end (43_hash_stream.md rules R141, R146;
44_crc32.md rules R163, R164). They are the other direction of `execHPut_cases` and its like: what the command answers, once the
session, the operand and the room are known. -/

namespace Sys2Proof.Machine

section hash
variable {arg : Half} {s : State}

theorem execHPut_of_not_active (hs : s.hashCtx.hs ≠ .active) : execHPut arg s = .next (raise s .eState) := if_pos hs

theorem execHPut_of_bad {code : Code} (hs : s.hashCtx.hs = .active) (hd : hashDatum s.hashCtx arg = .bad code) :
    execHPut arg s = .next (sessionFailHash s code) := by
  simp [execHPut, hs, hd]

theorem execHPut_of_firstDigit {d : Nibble} (hs : s.hashCtx.hs = .active) (hd : hashDatum s.hashCtx arg = .firstDigit d) :
    execHPut arg s = .next (respond (s.withHash (s.hashCtx.withLatch true d)) .ok 0) := by
  simp [execHPut, hs, hd]

theorem execHPut_of_no_room {bs : List Byte} (hs : s.hashCtx.hs = .active) (hd : hashDatum s.hashCtx arg = .bytes bs)
    (full : s.hashCtx.cnt.toNat + bs.length > Config.maxMessageBytes) :
    execHPut arg s = .next (sessionFailHash s .eLength) := by
  simp [execHPut, hs, hd, full]

theorem execHPut_of_bytes {bs : List Byte} (hs : s.hashCtx.hs = .active) (hd : hashDatum s.hashCtx arg = .bytes bs)
    (room : ¬ s.hashCtx.cnt.toNat + bs.length > Config.maxMessageBytes) :
    execHPut arg s = .next (respond (s.withHash (absorbAll s.hashCtx.latchUsed bs)) .ok 0) := by
  simp [execHPut, hs, hd, room]

theorem execHFinal_of_not_active (hs : s.hashCtx.hs ≠ .active) : execHFinal s = .next (raise s .eState) := if_pos hs

theorem execHFinal_of_unpaired (hs : s.hashCtx.hs = .active) (unpaired : s.hashCtx.hmode = .hex ∧ s.hashCtx.hnv = true) :
    execHFinal s = .next (sessionFailHash s .eHex) :=
  (if_neg (not_not_intro hs)).trans (if_pos unpaired)

theorem execHFinal_of_paired (hs : s.hashCtx.hs = .active) (paired : ¬ (s.hashCtx.hmode = .hex ∧ s.hashCtx.hnv = true)) :
    execHFinal s = .next (respond (s.withHash s.hashCtx.finished) .ok 0) :=
  (if_neg (not_not_intro hs)).trans (if_neg paired)

end hash

section crc
variable {arg : Half} {s : State}

theorem execCPut_of_not_active (hs : s.crcCtx.cs ≠ .active) : execCPut arg s = .next (raise s .eState) := if_pos hs

theorem execCPut_of_bad {code : Code} (hs : s.crcCtx.cs = .active) (hd : crcDatum s.crcCtx arg = .bad code) :
    execCPut arg s = .next (sessionFailCrc s code) := by
  simp [execCPut, hs, hd]

theorem execCPut_of_firstDigit {d : Nibble} (hs : s.crcCtx.cs = .active) (hd : crcDatum s.crcCtx arg = .firstDigit d) :
    execCPut arg s = .next (respond (s.withCrc (s.crcCtx.withLatch true d)) .ok 0) := by
  simp [execCPut, hs, hd]

theorem execCPut_of_bytes {bs : List Byte} (hs : s.crcCtx.cs = .active) (hd : crcDatum s.crcCtx arg = .bytes bs) :
    execCPut arg s = .next (respond (s.withCrc (s.crcCtx.latchUsed.accumulate bs)) .ok 0) := by
  simp [execCPut, hs, hd]

theorem execCFinal_of_not_active (hs : s.crcCtx.cs ≠ .active) : execCFinal s = .next (raise s .eState) := if_pos hs

theorem execCFinal_of_unpaired (hs : s.crcCtx.cs = .active) (unpaired : s.crcCtx.cmode = .hex ∧ s.crcCtx.cnv = true) :
    execCFinal s = .next (sessionFailCrc s .eHex) :=
  (if_neg (not_not_intro hs)).trans (if_pos unpaired)

theorem execCFinal_of_paired (hs : s.crcCtx.cs = .active) (paired : ¬ (s.crcCtx.cmode = .hex ∧ s.crcCtx.cnv = true)) :
    execCFinal s = .next (respond (s.withCrc s.crcCtx.finished) .ok s.crcCtx.finished.crc) :=
  (if_neg (not_not_intro hs)).trans (if_neg paired)

end crc

end Sys2Proof.Machine
end

section
/-! PROOFS. Byte order, ordering and the two contexts (20_memory.md rules R60, R70, R73): a step is the decoded command alone, a
command of one group neither reads nor writes the other group's context, and a buffer packs little-endian into its block. -/

namespace Sys2Proof.Machine

/-! ## The two contexts -/

/-- From `s`, one next state `t` does for every content of a part of the state: replace the part by `x` before `f`, and `f` answers
`t` with `x` in its place. So `f` neither reads the part nor writes it. -/
def IgnoresPartAt {α : Type} (replace : State → α → State) (f : State → Host.Outcome State Fault Refusal) (s : State) : Prop :=
  ∃ t, ∀ x, f (replace s x) = .next (replace t x)

/-- What the one next state gives for a part that `replace` puts and `part` reads: it is unchanged, and another content of it only
goes along. The three hypotheses say that the two belong together; for a context of the state each is true by `rfl`. -/
theorem IgnoresPartAt.of_next {α : Type} {replace : State → α → State} {part : State → α}
    {f : State → Host.Outcome State Fault Refusal} {s t : State} (h : IgnoresPartAt replace f s) (ht : f s = .next t)
    (replace_self : replace s (part s) = s) (part_replace : ∀ u x, part (replace u x) = x)
    (replace_replace : ∀ u x y, replace (replace u x) y = replace u y) (x : α) :
    part t = part s ∧ f (replace s x) = .next (replace t x) := by
  obtain ⟨u, hu⟩ := h
  have hself : f s = .next (replace u (part s)) := by simpa only [replace_self] using hu (part s)
  obtain rfl : replace u (part s) = t := by simpa using hself.symm.trans ht
  exact ⟨part_replace u (part s), by rw [hu x, replace_replace]⟩

/-- The case H_PUT ends in is decided in the hash context, and the operation that ends it goes past a replaced CRC context. -/
theorem execHPut_ignoresCrc (arg : Half) (s : State) : IgnoresPartAt State.withCrc (execHPut arg) s := by
  by_cases hs : s.hashCtx.hs = .active
  case neg => exact ⟨raise s .eState, fun _ => execHPut_of_not_active hs⟩
  cases hd : hashDatum s.hashCtx arg with
  | bad code => exact ⟨sessionFailHash s code, fun _ => execHPut_of_bad hs hd⟩
  | firstDigit d => exact ⟨respond (s.withHash (s.hashCtx.withLatch true d)) .ok 0, fun _ => execHPut_of_firstDigit hs hd⟩
  | bytes bs =>
    by_cases hl : s.hashCtx.cnt.toNat + bs.length > Config.maxMessageBytes
    · exact ⟨sessionFailHash s .eLength, fun _ => execHPut_of_no_room hs hd hl⟩
    · exact ⟨respond (s.withHash (absorbAll s.hashCtx.latchUsed bs)) .ok 0, fun _ => execHPut_of_bytes hs hd hl⟩

theorem execHFinal_ignoresCrc (s : State) : IgnoresPartAt State.withCrc execHFinal s := by
  by_cases hs : s.hashCtx.hs = .active
  case neg => exact ⟨raise s .eState, fun _ => execHFinal_of_not_active hs⟩
  by_cases hl : s.hashCtx.hmode = .hex ∧ s.hashCtx.hnv = true
  · exact ⟨sessionFailHash s .eHex, fun _ => execHFinal_of_unpaired hs hl⟩
  · exact ⟨respond (s.withHash s.hashCtx.finished) .ok 0, fun _ => execHFinal_of_paired hs hl⟩

theorem execCPut_ignoresHash (arg : Half) (s : State) : IgnoresPartAt State.withHash (execCPut arg) s := by
  by_cases hs : s.crcCtx.cs = .active
  case neg => exact ⟨raise s .eState, fun _ => execCPut_of_not_active hs⟩
  cases hd : crcDatum s.crcCtx arg with
  | bad code => exact ⟨sessionFailCrc s code, fun _ => execCPut_of_bad hs hd⟩
  | firstDigit d => exact ⟨respond (s.withCrc (s.crcCtx.withLatch true d)) .ok 0, fun _ => execCPut_of_firstDigit hs hd⟩
  | bytes bs => exact ⟨respond (s.withCrc (s.crcCtx.latchUsed.accumulate bs)) .ok 0, fun _ => execCPut_of_bytes hs hd⟩

theorem execCFinal_ignoresHash (s : State) : IgnoresPartAt State.withHash execCFinal s := by
  by_cases hs : s.crcCtx.cs = .active
  case neg => exact ⟨raise s .eState, fun _ => execCFinal_of_not_active hs⟩
  by_cases hl : s.crcCtx.cmode = .hex ∧ s.crcCtx.cnv = true
  · exact ⟨sessionFailCrc s .eHex, fun _ => execCFinal_of_unpaired hs hl⟩
  · exact ⟨respond (s.withCrc s.crcCtx.finished) .ok s.crcCtx.finished.crc, fun _ => execCFinal_of_paired hs hl⟩

/-- "no H_ command reads or writes CRC-context state" (R73). -/
theorem exec_ignoresCrc {i : Instr} (hi : isHashCommand i = true) (s : State) :
    IgnoresPartAt State.withCrc (exec i) s := by
  cases i with
  | hInitRaw => exact ⟨respond (s.withHash (HashCtx.opened .raw)) .ok 0, fun _ => rfl⟩
  | hInitHex => exact ⟨respond (s.withHash (HashCtx.opened .hex)) .ok 0, fun _ => rfl⟩
  | hInitText => exact ⟨respond (s.withHash (HashCtx.opened .text)) .ok 0, fun _ => rfl⟩
  | hPut arg => exact execHPut_ignoresCrc arg s
  | hFinal => exact execHFinal_ignoresCrc s
  | cInitText | cInitHex | cPut _ | cFinal | rd _ => cases hi

/-- "no C_ command reads or writes hash-context state" (R73). -/
theorem exec_ignoresHash {i : Instr} (hi : isCrcCommand i = true) (s : State) :
    IgnoresPartAt State.withHash (exec i) s := by
  cases i with
  | cInitText => exact ⟨respond (s.withCrc (CrcCtx.opened .text)) .ok 0, fun _ => rfl⟩
  | cInitHex => exact ⟨respond (s.withCrc (CrcCtx.opened .hex)) .ok 0, fun _ => rfl⟩
  | cPut arg => exact execCPut_ignoresHash arg s
  | cFinal => exact execCFinal_ignoresHash s
  | hInitRaw | hInitHex | hInitText | hPut _ | hFinal | rd _ => cases hi

/-- Settles O35, by what the commands of each group ignore. -/
theorem contextsAreIndependent : Obligations.ContextsAreIndependent := by
  unfold Obligations.ContextsAreIndependent
  constructor
  · intro i s t c hi ht
    exact (exec_ignoresCrc hi s).of_next (part := State.crcCtx) ht rfl (fun _ _ => rfl) (fun _ _ _ => rfl) c
  · intro i s t c hi ht
    exact (exec_ignoresHash hi s).of_next (part := State.hashCtx) ht rfl (fun _ _ => rfl) (fun _ _ _ => rfl) c

/-! ## The step -/

/-- Settles O6, by `step_of_command` and by `exec_total`, which takes the command off the port. -/
theorem stepRunsDecodedInstruction : Obligations.StepRunsDecodedInstruction := by
  unfold Obligations.StepRunsDecodedInstruction
  intro s cw rest i hi hd
  refine ⟨step_of_command hi hd, fun t ht => ?_⟩
  obtain ⟨u, hu, hin⟩ := exec_total i s
  obtain rfl : u = t := by simpa using hu.symm.trans ht
  rw [hin, hi, List.tail_cons]

/-! ## Byte order -/

/-- The four bytes as the digits of the word in base `2^8`, byte 0 least significant (R60). -/
theorem packBytes_toNat (b0 b1 b2 b3 : Byte) :
    (packBytes b0 b1 b2 b3).toNat = b0.toNat + b1.toNat * 2 ^ 8 + b2.toNat * 2 ^ 16 + b3.toNat * 2 ^ 24 := by
  have h0 := b0.isLt
  have h1 := b1.isLt
  have h2 := b2.isLt
  simp only [packBytes, BitVec.toNat_append]
  rw [← Nat.shiftLeft_add_eq_or_of_lt h0, ← Nat.shiftLeft_add_eq_or_of_lt h1, ← Nat.shiftLeft_add_eq_or_of_lt h2]
  simp only [Nat.shiftLeft_eq]
  omega

/-- "`block[0] + block[1]*2^32 + ... + block[7]*2^224`" (R60) as a sum over the words. -/
theorem blockValue_eq_sum (y : Block) : blockValue y = ∑ i : Fin 8, y[i].toNat * 2 ^ (32 * i.val) := by
  simp [blockValue, Fin.sum_univ_eight]

/-- Word `i` of a block is what its four bytes are in the 256-bit number. -/
theorem blockOfBuf_word_value (buf : Vector Byte 32) (i : Fin 8) :
    (blockOfBuf buf)[i].toNat * 2 ^ (32 * i.val) =
      ∑ b : Fin 4, (buf[b.val + 4 * i.val]'(by omega)).toNat * 2 ^ (8 * (b.val + 4 * i.val)) := by
  rw [Fin.getElem_fin, blockOfBuf_getElem, packBytes_toNat, Fin.sum_univ_four]
  simp only [Fin.coe_ofNat_eq_mod, Nat.reduceMod, Nat.add_comm _ (4 * i.val), Nat.add_zero]
  ring

/-- A sum over the 32 bytes of a buffer, word by word. -/
theorem sum_bytes_eq_sum_words (f : Fin 32 → Nat) :
    ∑ j : Fin 32, f j = ∑ i : Fin 8, ∑ b : Fin 4, f ⟨b.val + 4 * i.val, by omega⟩ :=
  calc ∑ j : Fin 32, f j
      = ∑ x : Fin 8 × Fin 4, f (finProdFinEquiv x) := (Equiv.sum_comp (finProdFinEquiv (m := 8) (n := 4)) f).symm
    _ = ∑ i : Fin 8, ∑ b : Fin 4, f (finProdFinEquiv (i, b)) := Fintype.sum_prod_type _

/-- The 256-bit number of a buffer's block has the bytes as its digits in base `2^8` (R60). -/
theorem blockValue_blockOfBuf (buf : Vector Byte 32) :
    blockValue (blockOfBuf buf) = ∑ j : Fin 32, buf[j].toNat * 2 ^ (8 * j.val) := by
  rw [blockValue_eq_sum, sum_bytes_eq_sum_words]
  exact Finset.sum_congr rfl fun i _ => blockOfBuf_word_value buf i

/-- Settles O46: the words by `packBytes_eq_or_shifts`, the number by `blockValue_blockOfBuf`. -/
theorem blockPackingIsLittleEndian : Obligations.BlockPackingIsLittleEndian := by
  unfold Obligations.BlockPackingIsLittleEndian
  exact fun buf =>
    ⟨fun i => (blockOfBuf_getElem buf i.val i.isLt).trans (packBytes_eq_or_shifts _ _ _ _), blockValue_blockOfBuf buf⟩

end Sys2Proof.Machine
end

section
/-! PROOFS. The command words (30_encoding.md rules R80 to R86): the fields of format C and the word are in bijection, a row's fields
are exactly those that decode to its command, and so `decode cw = .command i` says no more and no less than `cw = encode i`. -/

namespace Sys2Proof

/-! ## The fields of format C (R80) -/

@[simp] theorem splitWord_packWord (f : CommandFields) : splitWord (packWord f) = f := by
  obtain ⟨opc, z, arg⟩ := f
  simp (disch := decide) only [splitWord, packWord, BitVec.extractLsb'_append_eq_of_le,
    BitVec.extractLsb'_append_eq_of_add_le, BitVec.extractLsb'_eq_self, Nat.reduceSub]

/-- Bits 31:16 above bits 15:0 are the word. -/
theorem halves_append (cw : Word) : cw.extractLsb' 16 16 ++ cw.extractLsb' 0 16 = cw :=
  (BitVec.extractLsb'_append_extractLsb'_eq_extractLsb' (start₁ := 0) (len₁ := 16) rfl).trans BitVec.extractLsb'_eq_self

@[simp] theorem packWord_splitWord (cw : Word) : packWord (splitWord cw) = cw := by
  have hhigh : cw.extractLsb' 24 8 ++ cw.extractLsb' 16 8 = cw.extractLsb' 16 16 :=
    BitVec.extractLsb'_append_extractLsb'_eq_extractLsb' (start₁ := 16) (len₁ := 8) rfl
  calc packWord (splitWord cw)
      = (cw.extractLsb' 24 8 ++ cw.extractLsb' 16 8) ++ cw.extractLsb' 0 16 := rfl
    _ = cw.extractLsb' 16 16 ++ cw.extractLsb' 0 16 := by rw [hhigh]
    _ = cw := halves_append cw

/-! ## The rows (R83) -/

theorem decodeFields_encodeFields (i : Instr) : decodeFields (encodeFields i) = .command i := by
  cases i <;> rfl

/-- The fields that decode to a command are those of its row, all three of them: the branches of `decodeFields` that answer a
command have fixed Z and OPC, and ARG where it is no operand. -/
theorem encodeFields_of_decodeFields {f : CommandFields} {i : Instr} (h : decodeFields f = .command i) :
    encodeFields i = f := by
  obtain ⟨opc, z, arg⟩ := f
  obtain rfl : z = 0 := by
    by_contra hz
    rw [decodeFields, if_pos hz] at h
    cases h
  simp only [decodeFields] at h
  split_ifs at h <;> cases h <;> subst_vars <;> rfl

theorem decode_encode (i : Instr) : decode (encode i) = .command i := by
  rw [decode, encode, splitWord_packWord, decodeFields_encodeFields]

theorem encode_of_decode {cw : Word} {i : Instr} (h : decode cw = .command i) : encode i = cw := by
  rw [encode, encodeFields_of_decodeFields h, packWord_splitWord]

theorem decode_eq_command_iff {cw : Word} {i : Instr} : decode cw = .command i ↔ cw = encode i :=
  ⟨fun h => (encode_of_decode h).symm, fun h => h ▸ decode_encode i⟩

/-! ## Mask and match (R83) -/

/-- A row without an operand has the mask of all ones, which leaves the whole word to compare. -/
theorem and_fullMask (cw : Word) : cw &&& 0xFFFFFFFF = cw := BitVec.and_allOnes

/-- The mask of a row with an operand clears ARG and keeps OPC and Z. -/
theorem append_and_operandMask (high low : Half) : ((high ++ low : Word) &&& 0xFFFF0000) = high ++ (0 : Half) :=
  calc ((high ++ low : Word) &&& 0xFFFF0000)
      = (high ++ low) &&& (BitVec.allOnes 16 ++ (0 : Half)) := rfl
    _ = (high &&& BitVec.allOnes 16) ++ (low &&& 0) := BitVec.and_append
    _ = high ++ (0 : Half) := by rw [BitVec.and_allOnes, show low &&& 0 = 0 from BitVec.and_zero]

/-- A word is given by what the mask of an operand row keeps of it and by its operand `CW[15:0]`. -/
theorem word_eq_append_iff {cw : Word} {high low : Half} :
    cw = high ++ low ↔ cw &&& 0xFFFF0000 = high ++ (0 : Half) ∧ low = cw.extractLsb' 0 16 := by
  constructor
  · rintro rfl
    exact ⟨append_and_operandMask high low, BitVec.extractLsb'_append_eq_right.symm⟩
  · rintro ⟨hmask, rfl⟩
    have hhigh : cw.extractLsb' 16 16 = high := by
      rwa [← halves_append cw, append_and_operandMask, BitVec.append_left_inj] at hmask
    rw [← hhigh, halves_append]

/-- How a command without an operand is selected. -/
theorem decode_eq_command_iff_fullMask {cw : Word} (i : Instr) :
    decode cw = .command i ↔ cw &&& 0xFFFFFFFF = encode i := by
  rw [and_fullMask, decode_eq_command_iff]

/-- How a command with an operand is selected: its match is its word with 0 in place of the operand. -/
theorem decode_eq_command_iff_operandMask {cw : Word} {i : Instr} {opc z : BitVec 8} {arg : Half}
    (hi : encodeFields i = ⟨opc, z, arg⟩) :
    decode cw = .command i ↔ cw &&& 0xFFFF0000 = packWord ⟨opc, z, 0⟩ ∧ arg = cw.extractLsb' 0 16 := by
  rw [decode_eq_command_iff, encode, hi]
  exact word_eq_append_iff

/-! ## The illegal words (R85) -/

theorem CommandFields.zIsZero_eq_false_iff (f : CommandFields) : f.zIsZero = false ↔ f.z ≠ 0 := by
  simp [zIsZero]

theorem CommandFields.opcIsKnown_eq_false_iff (f : CommandFields) :
    f.opcIsKnown = false ↔ f.opc ∉ ([0x10, 0x11, 0x12, 0x20, 0x21, 0x22, 0x30] : List (BitVec 8)) := by
  simp [opcIsKnown, and_assoc]

theorem CommandFields.hashModeExists_eq_false_iff (f : CommandFields) :
    f.hashModeExists = false ↔ f.opc = 0x10 ∧ f.arg > 2 := by
  simp [hashModeExists]

theorem CommandFields.crcModeExists_eq_false_iff (f : CommandFields) :
    f.crcModeExists = false ↔ f.opc = 0x20 ∧ f.arg > 1 := by
  simp [crcModeExists]

theorem CommandFields.finalArgIsZero_eq_false_iff (f : CommandFields) :
    f.finalArgIsZero = false ↔ (f.opc = 0x12 ∨ f.opc = 0x22) ∧ f.arg ≠ 0 := by
  simp only [finalArgIsZero, Bool.or_eq_false_iff, Bool.and_eq_false_iff, bne_eq_false_iff_eq, beq_eq_false_iff_ne]

/-- The clauses of R85 are what `wellFormed` excludes, check by check. -/
theorem CommandFields.wellFormed_eq_false_iff (f : CommandFields) :
    f.wellFormed = false ↔
      f.z ≠ 0 ∨ (f.opc = 0x10 ∧ f.arg > 2) ∨ (f.opc = 0x20 ∧ f.arg > 1) ∨ ((f.opc = 0x12 ∨ f.opc = 0x22) ∧ f.arg ≠ 0) ∨
        f.opc ∉ ([0x10, 0x11, 0x12, 0x20, 0x21, 0x22, 0x30] : List (BitVec 8)) := by
  simp only [wellFormed, Bool.and_eq_false_iff, zIsZero_eq_false_iff, opcIsKnown_eq_false_iff, hashModeExists_eq_false_iff,
    crcModeExists_eq_false_iff, finalArgIsZero_eq_false_iff]
  tauto

theorem encodeFields_wellFormed (i : Instr) : (encodeFields i).wellFormed = true := by
  cases i with
  | hInitRaw => exact Laws.EncodedFieldsWellFormed.hInitRaw
  | hInitHex => exact Laws.EncodedFieldsWellFormed.hInitHex
  | hInitText => exact Laws.EncodedFieldsWellFormed.hInitText
  | hPut arg => exact Laws.EncodedFieldsWellFormed.hPut arg
  | hFinal => exact Laws.EncodedFieldsWellFormed.hFinal
  | cInitText => exact Laws.EncodedFieldsWellFormed.cInitText
  | cInitHex => exact Laws.EncodedFieldsWellFormed.cInitHex
  | cPut arg => exact Laws.EncodedFieldsWellFormed.cPut arg
  | cFinal => exact Laws.EncodedFieldsWellFormed.cFinal
  | rd index => exact Laws.EncodedFieldsWellFormed.rd index

theorem wellFormed_eq_false_of_illegal {f : CommandFields} {why : DecodeReject} (h : decodeFields f = .illegal why) :
    f.wellFormed = false := by
  rw [CommandFields.wellFormed_eq_false_iff]
  unfold decodeFields at h
  split_ifs at h with hz hopc10 harg0 harg1 harg2 hopc11 hopc12 harg0 hopc20 harg0 harg1 hopc21 hopc22 harg0 hopc30
  · exact .inl hz
  · exact .inr (.inl ⟨hopc10, by bv_omega⟩)
  · exact .inr (.inr (.inr (.inl ⟨.inl hopc12, harg0⟩)))
  · exact .inr (.inr (.inl ⟨hopc20, by bv_omega⟩))
  · exact .inr (.inr (.inr (.inl ⟨.inr hopc22, harg0⟩)))
  · exact .inr (.inr (.inr (.inr (by simpa using ⟨hopc10, hopc11, hopc12, hopc20, hopc21, hopc22, hopc30⟩))))

/-- `decodeFields` rejects exactly the fields that fail a check of R85. -/
theorem decodeFields_illegal_iff (f : CommandFields) :
    (∃ why, decodeFields f = .illegal why) ↔ f.wellFormed = false := by
  refine ⟨fun ⟨_, h⟩ => wellFormed_eq_false_of_illegal h, fun hbad => ?_⟩
  cases hd : decodeFields f with
  | illegal why => exact ⟨why, rfl⟩
  | command i =>
    rw [← encodeFields_of_decodeFields hd, encodeFields_wellFormed] at hbad
    cases hbad

/-! ## The statements -/

/-- Settles O1, by `splitWord_packWord` and the rows of `decodeFields`. -/
theorem decodeInvertsEncode : Obligations.DecodeInvertsEncode := by
  unfold Obligations.DecodeInvertsEncode
  exact decode_encode

/-- Settles O2, by `encodeFields_of_decodeFields` and `packWord_splitWord`. -/
theorem encodeInvertsDecode : Obligations.EncodeInvertsDecode := by
  unfold Obligations.EncodeInvertsDecode
  exact fun _ _ => encode_of_decode

/-- Settles O3: each row by its mask, its match being the word of the command with ARG as 0 where ARG is the operand. -/
theorem decodeSelectsTableRow : Obligations.DecodeSelectsTableRow := by
  unfold Obligations.DecodeSelectsTableRow
  exact fun cw =>
    ⟨decode_eq_command_iff_fullMask .hInitRaw, decode_eq_command_iff_fullMask .hInitHex,
      decode_eq_command_iff_fullMask .hInitText,
      fun arg => decode_eq_command_iff_operandMask (i := .hPut arg) rfl,
      decode_eq_command_iff_fullMask .hFinal, decode_eq_command_iff_fullMask .cInitText,
      decode_eq_command_iff_fullMask .cInitHex,
      fun arg => decode_eq_command_iff_operandMask (i := .cPut arg) rfl,
      decode_eq_command_iff_fullMask .cFinal,
      fun index => decode_eq_command_iff_operandMask (i := .rd index) rfl⟩

/-- Settles O5, by evaluating `decode`. -/
theorem writtenOutWordsDecode : Obligations.WrittenOutWordsDecode := by
  unfold Obligations.WrittenOutWordsDecode
  decide

end Sys2Proof
end

section
/-! PROOFS. What a command word answers (30_encoding.md rules R85 and R89): an illegal word E_ILLEGAL, a command one response whose
datum is that of `okDatum` on success and 0 on an error. -/

namespace Sys2Proof.Machine

/-- Settles O4: the words by `decodeFields_illegal_iff`, and executing one is `illegalCommand`, which raises E_ILLEGAL. -/
theorem illegalWordRaisesEIllegal : Obligations.IllegalWordRaisesEIllegal := by
  unfold Obligations.IllegalWordRaisesEIllegal
  constructor
  · intro cw
    exact (decodeFields_illegal_iff (splitWord cw)).trans (splitWord cw).wellFormed_eq_false_iff
  · intro s cw rest why hi hd
    exact ⟨illegalCommand s, step_of_illegal hi hd, rfl, rfl, rfl, rfl⟩

/-! ## The datum of a command (R89) -/

/-- The datum with which a command that succeeds from `s` to `t` answers: "the entry read" for RD, "the final CRC
value" for C_FINAL, 0 for the others. None for the RD of an unmapped index, which does not succeed. -/
def okDatum (i : Instr) (s t : State) : Option Word :=
  match i with
  | .rd index => memRead s index
  | .cFinal => some t.crcCtx.crc
  | _ => some 0

theorem okDatum_eq_zero {i : Instr} (hrd : ∀ index, i ≠ .rd index) (hfinal : i ≠ .cFinal) (s t : State) :
    okDatum i s t = some 0 := by
  cases i with
  | rd index => exact absurd rfl (hrd index)
  | cFinal => exact absurd rfl hfinal
  | hInitRaw | hInitHex | hInitText | hPut _ | hFinal | cInitText | cInitHex | cPut _ => rfl

/-- The command `i` answers by R89: one response, its datum that of `okDatum` if the code is OK and 0 if not. -/
def AnswersByRule (i : Instr) (s t : State) : Prop :=
  ∃ code data, Answers s t code data ∧ (code ≠ .ok → data = 0) ∧ (code = .ok → okDatum i s t = some data)

theorem AnswersByRule.of_error {i : Instr} {s t : State} {code : Code} (h : Answers s t code 0) (hc : code ≠ .ok) :
    AnswersByRule i s t :=
  ⟨code, 0, h, fun _ => rfl, fun hok => absurd hok hc⟩

theorem AnswersByRule.of_ok {i : Instr} {s t : State} {data : Word} (h : Answers s t .ok data)
    (hd : okDatum i s t = some data) : AnswersByRule i s t :=
  ⟨.ok, data, h, fun hne => absurd rfl hne, fun _ => hd⟩

/-- A command whose successful datum is 0 need only be shown to answer 0, whatever its code. -/
theorem AnswersByRule.of_zero {i : Instr} {s t : State} (hd : okDatum i s t = some 0) (h : ∃ code, Answers s t code 0) :
    AnswersByRule i s t :=
  let ⟨code, hcode⟩ := h
  ⟨code, 0, hcode, fun _ => rfl, fun _ => hd⟩

theorem hashInit_answers_zero {mode : HashMode} {s t : State} (h : hashInit mode s = .next t) :
    ∃ code, Answers s t code 0 := by
  obtain rfl := hashInit_next h
  exact ⟨.ok, rfl⟩

theorem crcInit_answers_zero {mode : CrcMode} {s t : State} (h : crcInit mode s = .next t) :
    ∃ code, Answers s t code 0 := by
  obtain rfl := crcInit_next h
  exact ⟨.ok, rfl⟩

theorem execHPut_answers_zero {arg : Half} {s t : State} (h : execHPut arg s = .next t) : ∃ code, Answers s t code 0 := by
  obtain ⟨-, rfl⟩ | ⟨-, code, -, rfl⟩ | ⟨-, d, -, rfl⟩ | ⟨-, bs, -, -, rfl⟩ | ⟨-, bs, -, -, rfl⟩ := execHPut_cases h
  · exact ⟨.eState, rfl⟩
  · exact ⟨code, rfl⟩
  · exact ⟨.ok, rfl⟩
  · exact ⟨.eLength, rfl⟩
  · exact ⟨.ok, rfl⟩

theorem execHFinal_answers_zero {s t : State} (h : execHFinal s = .next t) : ∃ code, Answers s t code 0 := by
  obtain ⟨-, rfl⟩ | ⟨-, -, rfl⟩ | ⟨-, -, rfl⟩ := execHFinal_cases h
  · exact ⟨.eState, rfl⟩
  · exact ⟨.eHex, rfl⟩
  · exact ⟨.ok, rfl⟩

theorem execCPut_answers_zero {arg : Half} {s t : State} (h : execCPut arg s = .next t) : ∃ code, Answers s t code 0 := by
  obtain ⟨-, rfl⟩ | ⟨-, code, -, rfl⟩ | ⟨-, d, -, rfl⟩ | ⟨-, bs, -, rfl⟩ := execCPut_cases h
  · exact ⟨.eState, rfl⟩
  · exact ⟨code, rfl⟩
  · exact ⟨.ok, rfl⟩
  · exact ⟨.ok, rfl⟩

theorem execCFinal_answersByRule {s t : State} (h : execCFinal s = .next t) : AnswersByRule .cFinal s t := by
  obtain ⟨-, rfl⟩ | ⟨-, -, rfl⟩ | ⟨-, -, rfl⟩ := execCFinal_cases h
  · exact .of_error (code := .eState) rfl (by decide)
  · exact .of_error (code := .eHex) rfl (by decide)
  · exact .of_ok (data := s.crcCtx.finished.crc) rfl rfl

theorem execRd_answersByRule {index : Half} {s t : State} (h : execRd index s = .next t) : AnswersByRule (.rd index) s t := by
  obtain ⟨v, hv, rfl⟩ | ⟨-, rfl⟩ := execRd_cases h
  · exact .of_ok (data := v) rfl hv
  · exact .of_error (code := .eAddr) rfl (by decide)

theorem exec_answersByRule {i : Instr} {s t : State} (h : exec i s = .next t) : AnswersByRule i s t := by
  cases i with
  | hInitRaw | hInitHex | hInitText => exact .of_zero rfl (hashInit_answers_zero h)
  | hPut arg => exact .of_zero rfl (execHPut_answers_zero h)
  | hFinal => exact .of_zero rfl (execHFinal_answers_zero h)
  | cInitText | cInitHex => exact .of_zero rfl (crcInit_answers_zero h)
  | cPut arg => exact .of_zero rfl (execCPut_answers_zero h)
  | cFinal => exact execCFinal_answersByRule h
  | rd index => exact execRd_answersByRule h

/-- "`RW[35:32] = code`, `RW[31:0] = data`" (R89). -/
theorem responseWord_fields (r : Response) :
    (responseWord r).extractLsb' 32 4 = codeBits r.code ∧ (responseWord r).extractLsb' 0 32 = r.data :=
  ⟨BitVec.extractLsb'_append_eq_left, BitVec.extractLsb'_append_eq_right⟩

/-- Settles O8: a legal word answers by `exec_answersByRule`, an illegal one E_ILLEGAL with datum 0; the rest holds of every
response. -/
theorem everyCommandAnswersOnce : Obligations.EveryCommandAnswersOnce := by
  unfold Obligations.EveryCommandAnswersOnce
  intro s cw rest hi
  cases hd : decode cw with
  | command i =>
    obtain ⟨t, ht, -⟩ := exec_total i s
    obtain ⟨code, data, hans, herror, hok⟩ := exec_answersByRule ht
    refine ⟨t, ⟨code, data⟩, (step_of_command hi hd).trans ht, hans, herror, fun hcode => ?_, codeBits_eq_zero_iff code,
      responseWord_fields ⟨code, data⟩⟩
    have hdatum : okDatum i s t = some data := hok hcode
    refine ⟨?_, ?_, ?_⟩
    · rintro index ⟨⟩
      exact hdatum
    · rintro ⟨⟩
      exact (Option.some.inj hdatum).symm
    · intro hrd hfinal
      have hzero := okDatum_eq_zero (fun index h => hrd index (congrArg _ h)) (fun h => hfinal (congrArg _ h)) s t
      exact Option.some.inj (hdatum.symm.trans hzero)
  | illegal why =>
    exact ⟨illegalCommand s, ⟨.eIllegal, 0⟩, step_of_illegal hi hd, rfl, fun _ => rfl, fun hcode => absurd hcode (by decide),
      codeBits_eq_zero_iff _, responseWord_fields _⟩

end Sys2Proof.Machine
end

section
/-! PROOFS. The expanded S-box (40_sbox_expander.md rules R100 to R104). A nibble that a shift does not push out of the word is
rotated by that shift, so each table entry is the or of its two S-box nibbles rotated to their places. The meaning of the tables
(R101) and their occupied bits (R102) both follow from this form. -/

namespace Sys2Proof.Machine

/-! ## Stability -/

/-- At and above 0x0100 the map leads to constants or to nothing. -/
theorem memRead_const {index : Half} (hi : 0x0100 ≤ index.toNat) (s t : State) : memRead s index = memRead t index := by
  cases he : entryAt index with
  | none => rw [memRead_eq_none.mpr he, memRead_eq_none.mpr he]
  | some e => rw [memRead_of_entryAt he, memRead_of_entryAt he, readEntry_const he hi s t]

/-- Settles O30, by `memRead_const`. -/
theorem tableReadsAreStable : Obligations.TableReadsAreStable := by
  unfold Obligations.TableReadsAreStable
  intro s t index hi
  exact memRead_const (BitVec.le_def.mp hi) s t

/-! ## Rotations -/

theorem rotateLeft_or {w : Nat} (x y : BitVec w) (k : Nat) :
    (x ||| y).rotateLeft k = x.rotateLeft k ||| y.rotateLeft k := by
  simp only [BitVec.rotateLeft_def, BitVec.shiftLeft_or_distrib, BitVec.ushiftRight_or_distrib]
  ac_rfl

/-- Counted from the top bit, a rotation only adds its amount to the place, so two rotations add up. -/
theorem rotateLeft_rotateLeft {w : Nat} (x : BitVec w) (j k : Nat) : (x.rotateLeft j).rotateLeft k = x.rotateLeft (j + k) := by
  apply BitVec.eq_of_getMsbD_eq
  intro i hi
  have hlt : (k + i) % w < w := Nat.mod_lt _ (by omega)
  have hplace : (j + (k + i) % w) % w = (j + k + i) % w := by rw [Nat.add_mod_mod, Nat.add_assoc]
  simp [BitVec.getMsbD_rotateLeft, hi, hlt, hplace]

/-- A value that stays within the word under a shift is rotated by it: what a rotation brings in from the top is 0. -/
theorem setWidth_shiftLeft_eq_rotateLeft {v w k : Nat} (x : BitVec v) (hk : k < w) (h : v + k ≤ w) :
    x.setWidth w <<< k = (x.setWidth w).rotateLeft k := by
  have htop : x.setWidth w >>> (w - k) = 0#w := by
    apply BitVec.eq_of_getLsbD_eq
    intro i _
    have hpast : x.getLsbD (w - k + i) = false := BitVec.getLsbD_of_ge x _ (by omega)
    simp [hpast]
  rw [BitVec.rotateLeft_def, Nat.mod_eq_of_lt hk, htop, BitVec.or_zero]

/-- `SBOX[r][i[7:4]]` at a place of its own in the word. -/
theorem sboxHigh_shiftLeft (r : Fin 8) (i : Byte) {k : Nat} (hk : k ≤ 28) : sboxHigh r i <<< k = (sboxHigh r i).rotateLeft k :=
  setWidth_shiftLeft_eq_rotateLeft _ (by omega) (by omega)

/-- `SBOX[r][i[3:0]]` at a place of its own in the word. -/
theorem sboxLow_shiftLeft (r : Fin 8) (i : Byte) {k : Nat} (hk : k ≤ 28) : sboxLow r i <<< k = (sboxLow r i).rotateLeft k :=
  setWidth_shiftLeft_eq_rotateLeft _ (by omega) (by omega)

/-! ## The tables as rotations (R100) -/

theorem tableT1_eq_rotateLeft (i : Byte) : tableT1 i = (sboxHigh 1 i).rotateLeft 15 ||| (sboxLow 0 i).rotateLeft 11 := by
  rw [tableT1, sboxHigh_shiftLeft 1 i (by decide), sboxLow_shiftLeft 0 i (by decide)]

theorem tableT2_eq_rotateLeft (i : Byte) : tableT2 i = (sboxHigh 3 i).rotateLeft 23 ||| (sboxLow 2 i).rotateLeft 19 := by
  rw [tableT2, sboxHigh_shiftLeft 3 i (by decide), sboxLow_shiftLeft 2 i (by decide)]

theorem tableT3_eq_rotateLeft (i : Byte) : tableT3 i = (sboxHigh 5 i).rotateLeft 31 ||| (sboxLow 4 i).rotateLeft 27 := by
  rw [tableT3, sboxLow_shiftLeft 4 i (by decide)]

theorem tableT4_eq_rotateLeft (i : Byte) : tableT4 i = (sboxHigh 7 i).rotateLeft 7 ||| (sboxLow 6 i).rotateLeft 3 := by
  rw [tableT4, sboxHigh_shiftLeft 7 i (by decide), sboxLow_shiftLeft 6 i (by decide)]

/-! ## The meaning of the tables (R101) -/

/-- Two nibbles put at the byte at bit `k` and rotated by 11: the shift keeps both, so it rotates, and the rotations add up. -/
theorem substituted_byte_rotateLeft (low high : Fin 8) (i : Byte) {k : Nat} (hk : k ≤ 24) :
    ((sboxLow low i ||| sboxHigh high i <<< 4) <<< k).rotateLeft 11 =
      (sboxHigh high i).rotateLeft (4 + k + 11) ||| (sboxLow low i).rotateLeft (k + 11) := by
  rw [BitVec.shiftLeft_or_distrib, ← BitVec.shiftLeft_add, sboxHigh_shiftLeft high i (by omega),
    sboxLow_shiftLeft low i (by omega), rotateLeft_or, rotateLeft_rotateLeft, rotateLeft_rotateLeft, BitVec.or_comm]

/-- Settles O36: the amounts of `substituted_byte_rotateLeft` are those of the tables, for T4 modulo 32. -/
theorem expandedTablesMeaning : Obligations.ExpandedTablesMeaning := by
  unfold Obligations.ExpandedTablesMeaning
  intro i
  refine ⟨?_, ?_, ?_, ?_⟩
  · rw [tableT1_eq_rotateLeft, substituted_byte_rotateLeft 0 1 i (by decide)]
  · rw [tableT2_eq_rotateLeft, substituted_byte_rotateLeft 2 3 i (by decide)]
  · rw [tableT3_eq_rotateLeft, substituted_byte_rotateLeft 4 5 i (by decide)]
  · rw [tableT4_eq_rotateLeft, substituted_byte_rotateLeft 6 7 i (by decide)]
    rw [← BitVec.rotateLeft_mod_eq_rotateLeft (r := 4 + 24 + 11), ← BitVec.rotateLeft_mod_eq_rotateLeft (r := 24 + 11)]

/-! ## Occupied bits (R102) -/

/-- A word with nonzero bits only in those of a mask, in the form R102 writes it. -/
def BitsWithin (x mask : Word) : Prop := x &&& ~~~ mask = 0

theorem bitsWithin_iff_or_eq {x mask : Word} : BitsWithin x mask ↔ x ||| mask = mask := by
  simp only [BitsWithin, BitVec.eq_of_getLsbD_eq_iff, BitVec.getLsbD_and, BitVec.getLsbD_or, BitVec.getLsbD_not]
  grind

theorem BitsWithin.or {x y m n : Word} (hx : BitsWithin x m) (hy : BitsWithin y n) : BitsWithin (x ||| y) (m ||| n) := by
  rw [bitsWithin_iff_or_eq] at *
  calc x ||| y ||| (m ||| n) = (x ||| m) ||| (y ||| n) := by ac_rfl
    _ = m ||| n := by rw [hx, hy]

theorem BitsWithin.rotateLeft {x m : Word} (h : BitsWithin x m) (k : Nat) : BitsWithin (x.rotateLeft k) (m.rotateLeft k) := by
  rw [bitsWithin_iff_or_eq] at *
  rw [← rotateLeft_or, h]

/-- "the exclusive-or [...] could equally be an or" (R102): no bit is in both of two words within disjoint masks. -/
theorem BitsWithin.xor_eq_or {x y m n : Word} (hx : BitsWithin x m) (hy : BitsWithin y n) (disjoint : m &&& n = 0) :
    x ^^^ y = x ||| y := by
  simp only [BitsWithin, BitVec.eq_of_getLsbD_eq_iff, BitVec.getLsbD_and, BitVec.getLsbD_or, BitVec.getLsbD_xor,
    BitVec.getLsbD_not] at *
  grind

theorem nibble_bitsWithin (n : Nibble) : BitsWithin (n.setWidth 32) 0xF := by
  revert n
  unfold BitsWithin
  decide

/-- The two nibbles of a table entry occupy at most the places of two nibbles of ones. -/
theorem nibble_rotations_bitsWithin (high low : Fin 8) (i : Byte) (j k : Nat) :
    BitsWithin ((sboxHigh high i).rotateLeft j ||| (sboxLow low i).rotateLeft k)
      ((0xF : Word).rotateLeft j ||| (0xF : Word).rotateLeft k) :=
  ((nibble_bitsWithin _).rotateLeft j).or ((nibble_bitsWithin _).rotateLeft k)

theorem tableT1_bitsWithin (i : Byte) : BitsWithin (tableT1 i) 0x0007F800 := by
  have hmask : (0x0007F800 : Word) = (0xF : Word).rotateLeft 15 ||| (0xF : Word).rotateLeft 11 := by decide
  rw [tableT1_eq_rotateLeft, hmask]
  exact nibble_rotations_bitsWithin 1 0 i 15 11

theorem tableT2_bitsWithin (i : Byte) : BitsWithin (tableT2 i) 0x07F80000 := by
  have hmask : (0x07F80000 : Word) = (0xF : Word).rotateLeft 23 ||| (0xF : Word).rotateLeft 19 := by decide
  rw [tableT2_eq_rotateLeft, hmask]
  exact nibble_rotations_bitsWithin 3 2 i 23 19

theorem tableT3_bitsWithin (i : Byte) : BitsWithin (tableT3 i) 0xF8000007 := by
  have hmask : (0xF8000007 : Word) = (0xF : Word).rotateLeft 31 ||| (0xF : Word).rotateLeft 27 := by decide
  rw [tableT3_eq_rotateLeft, hmask]
  exact nibble_rotations_bitsWithin 5 4 i 31 27

theorem tableT4_bitsWithin (i : Byte) : BitsWithin (tableT4 i) 0x000007F8 := by
  have hmask : (0x000007F8 : Word) = (0xF : Word).rotateLeft 7 ||| (0xF : Word).rotateLeft 3 := by decide
  rw [tableT4_eq_rotateLeft, hmask]
  exact nibble_rotations_bitsWithin 7 6 i 7 3

/-- The round function may join its four lookups by or (R102, R110): each lookup is disjoint from those before it. -/
theorem roundF_eq_or (t : Word) :
    roundF t = tableT1 (byteOf t 0) ||| tableT2 (byteOf t 1) ||| tableT3 (byteOf t 2) ||| tableT4 (byteOf t 3) := by
  have h12 := (tableT1_bitsWithin (byteOf t 0)).or (tableT2_bitsWithin (byteOf t 1))
  have h123 := h12.or (tableT3_bitsWithin (byteOf t 2))
  rw [roundF, (tableT1_bitsWithin _).xor_eq_or (tableT2_bitsWithin _) (by decide),
    h12.xor_eq_or (tableT3_bitsWithin _) (by decide), h123.xor_eq_or (tableT4_bitsWithin _) (by decide)]

/-- Settles O37: the masks table by table, the round function by `roundF_eq_or`. -/
theorem expandedTablesOccupiedBits : Obligations.ExpandedTablesOccupiedBits := by
  unfold Obligations.ExpandedTablesOccupiedBits
  exact ⟨fun i => ⟨tableT1_bitsWithin i, tableT2_bitsWithin i, tableT3_bitsWithin i, tableT4_bitsWithin i⟩, roundF_eq_or,
    by decide⟩

end Sys2Proof.Machine
end

section
/-! PROOFS. The cipher engine (41_cipher_engine.md rules R110 to R115). A word is its four bytes and a byte its two nibbles, so the
round function is read from the meaning of the tables (R101) byte by byte; the two forms of the engine are related round by round; and
the P-transformation only moves bytes, each to a place of its own. -/

namespace Sys2Proof.Machine

/-! ## A word as its bytes, a byte as its nibbles (R9, R60) -/

/-- A field of a field is a field of the whole, at the sum of the two places. -/
theorem extractLsb'_of_extractLsb' {w m n j : Nat} (x : BitVec w) (k : Nat) (h : j + n ≤ m) :
    (x.extractLsb' k m).extractLsb' j n = x.extractLsb' (k + j) n := by
  apply BitVec.eq_of_getLsbD_eq
  intro i hi
  simp [hi, show j + i < m by omega, Nat.add_assoc]

theorem packBytes_eq_or (b0 b1 b2 b3 : Byte) :
    packBytes b0 b1 b2 b3 =
      b0.setWidth 32 ||| b1.setWidth 32 <<< 8 ||| b2.setWidth 32 <<< 16 ||| b3.setWidth 32 <<< 24 := by
  apply BitVec.eq_of_getLsbD_eq
  intro i hi
  have hpast (b : Byte) {j : Nat} (hj : 8 ≤ j) : b.getLsbD j = false := BitVec.getLsbD_of_ge b j hj
  rw [packBytes_getLsbD]
  split_ifs with h8 h16 h24
  · simp [hi, h8, show i < 16 by omega, show i < 24 by omega]
  · simp [hi, h8, h16, show i < 24 by omega, hpast b0 (j := i) (by omega)]
  · simp [hi, h8, h16, h24, hpast b0 (j := i) (by omega), hpast b1 (j := i - 8) (by omega)]
  · simp [hi, h8, h16, h24, hpast b0 (j := i) (by omega), hpast b1 (j := i - 8) (by omega),
      hpast b2 (j := i - 16) (by omega)]

/-- Packing is the inverse of taking a word apart. -/
theorem packBytes_of_byteOf (w : Word) : packBytes (byteOf w 0) (byteOf w 1) (byteOf w 2) (byteOf w 3) = w := by
  apply BitVec.eq_of_getLsbD_eq
  intro i hi
  rw [packBytes_getLsbD]
  split_ifs with h8 h16 h24
  · simp [byteOf, h8]
  · simp [byteOf, show i - 8 < 8 by omega, show 8 + (i - 8) = i by omega]
  · simp [byteOf, show i - 16 < 8 by omega, show 16 + (i - 16) = i by omega]
  · simp [byteOf, show i - 24 < 8 by omega, show 24 + (i - 24) = i by omega]

theorem word_ext_bytes {w w' : Word} (h : ∀ j : Fin 4, byteOf w j.val = byteOf w' j.val) : w = w' := by
  have h0 : byteOf w 0 = byteOf w' 0 := h 0
  have h1 : byteOf w 1 = byteOf w' 1 := h 1
  have h2 : byteOf w 2 = byteOf w' 2 := h 2
  have h3 : byteOf w 3 = byteOf w' 3 := h 3
  rw [← packBytes_of_byteOf w, h0, h1, h2, h3, packBytes_of_byteOf]

theorem setWidth_byte_eq_or_nibbles (b : Byte) :
    b.setWidth 32 = (b.extractLsb' 0 4).setWidth 32 ||| (b.extractLsb' 4 4).setWidth 32 <<< 4 := by
  apply BitVec.eq_of_getLsbD_eq
  intro i hi
  by_cases h4 : i < 4
  · simp [hi, h4]
  · by_cases h8 : i - 4 < 4
    · simp [hi, h4, h8, show 4 + (i - 4) = i by omega]
    · simp [hi, h4, h8, BitVec.getLsbD_of_ge b i (by omega)]

/-! ## The round function (R110) -/

/-- Each nibble `r` of `u` is `SBOX[r]` of nibble `r` of `t`. -/
def NibblesSubstituted (t u : Word) : Prop :=
  ∀ r : Fin 8, u.extractLsb' (4 * r.val) 4 = sbox r (t.extractLsb' (4 * r.val) 4)

/-- Byte `k` holds the nibbles `2k` and `2k+1`, so two rows of SBOX turn it into byte `k` of the substituted word. -/
theorem NibblesSubstituted.byte {t u : Word} (h : NibblesSubstituted t u) (k : Fin 4) :
    sboxLow ⟨2 * k.val, by omega⟩ (byteOf t k.val) ||| sboxHigh ⟨2 * k.val + 1, by omega⟩ (byteOf t k.val) <<< 4 =
      (byteOf u k.val).setWidth 32 := by
  have hlow : (byteOf u k.val).extractLsb' 0 4 = sbox ⟨2 * k.val, by omega⟩ ((byteOf t k.val).extractLsb' 0 4) := by
    simpa [byteOf, extractLsb'_of_extractLsb', ← Nat.mul_assoc] using h ⟨2 * k.val, by omega⟩
  have hhigh : (byteOf u k.val).extractLsb' 4 4 = sbox ⟨2 * k.val + 1, by omega⟩ ((byteOf t k.val).extractLsb' 4 4) := by
    simpa [byteOf, extractLsb'_of_extractLsb', Nat.mul_add, ← Nat.mul_assoc] using h ⟨2 * k.val + 1, by omega⟩
  rw [setWidth_byte_eq_or_nibbles, hlow, hhigh, sboxLow, sboxHigh]

/-- The or of the four tables is one rotation of the or of the four substituted bytes, which is the substituted word. -/
theorem NibblesSubstituted.roundF_eq {t u : Word} (h : NibblesSubstituted t u) : roundF t = u.rotateLeft 11 := by
  obtain ⟨hT1, -⟩ := expandedTablesMeaning (byteOf t 0)
  obtain ⟨-, hT2, -⟩ := expandedTablesMeaning (byteOf t 1)
  obtain ⟨-, -, hT3, -⟩ := expandedTablesMeaning (byteOf t 2)
  obtain ⟨-, -, -, hT4⟩ := expandedTablesMeaning (byteOf t 3)
  have h0 : sboxLow 0 (byteOf t 0) ||| sboxHigh 1 (byteOf t 0) <<< 4 = (byteOf u 0).setWidth 32 := h.byte 0
  have h1 : sboxLow 2 (byteOf t 1) ||| sboxHigh 3 (byteOf t 1) <<< 4 = (byteOf u 1).setWidth 32 := h.byte 1
  have h2 : sboxLow 4 (byteOf t 2) ||| sboxHigh 5 (byteOf t 2) <<< 4 = (byteOf u 2).setWidth 32 := h.byte 2
  have h3 : sboxLow 6 (byteOf t 3) ||| sboxHigh 7 (byteOf t 3) <<< 4 = (byteOf u 3).setWidth 32 := h.byte 3
  rw [roundF_eq_or, hT1, hT2, hT3, hT4, h0, h1, h2, h3, ← rotateLeft_or, ← rotateLeft_or, ← rotateLeft_or,
    BitVec.shiftLeft_zero, ← packBytes_eq_or, packBytes_of_byteOf]

/-- Settles O38, by `NibblesSubstituted.roundF_eq`. -/
theorem roundFunctionSubstitutesThenRotates : Obligations.RoundFunctionSubstitutesThenRotates := by
  unfold Obligations.RoundFunctionSubstitutesThenRotates
  intro t u h
  exact NibblesSubstituted.roundF_eq h

/-! ## The engine and the register form (R111, R112) -/

/-- The registers that stand for the halves of the engine: `n1` is the right half, `n2` the left. -/
def Halves.registers (x : Halves) : Registers := { n1 := x.right, n2 := x.left }

/-- One pair of sub-rounds without an exchange is two rounds with one. -/
theorem registers_roundPair (keys : Block) (x : Halves) (p : Nat) :
    (roundPair keys x p).registers = registerRound keys (registerRound keys x.registers (2 * p)) (2 * p + 1) := by
  simp [Halves.registers, roundPair, registerRound, BitVec.add_comm]

theorem registers_foldl_roundPair (keys : Block) (x : Halves) (n : Nat) :
    ((List.range n).foldl (roundPair keys) x).registers = (List.range (2 * n)).foldl (registerRound keys) x.registers := by
  induction n with
  | zero => rfl
  | succ n ih =>
    rw [List.range_succ, List.foldl_concat, registers_roundPair, ih, Nat.mul_succ, List.range_succ, List.range_succ,
      List.foldl_concat, List.foldl_concat]

/-- The exchange of the two registers. -/
def Registers.exchanged (x : Registers) : Registers := { n1 := x.n2, n2 := x.n1 }

/-- Round 31 as R112 has it, without the exchange, is the exchange of a round with it. -/
theorem encRegisters_eq_exchanged (n1 n2 : Word) (keys : Block) :
    encRegisters n1 n2 keys = ((List.range 32).foldl (registerRound keys) { n1 := n1, n2 := n2 }).exchanged := by
  rw [List.range_succ, List.foldl_concat]
  rfl

/-- Settles O40: both forms end with an exchange after the 32 rounds that `registers_foldl_roundPair` relates. -/
theorem engineEqualsRegisterForm : Obligations.EngineEqualsRegisterForm := by
  unfold Obligations.EngineEqualsRegisterForm
  intro left right keys
  have hrounds : ((List.range 16).foldl (roundPair keys) { left := left, right := right }).registers =
      (List.range 32).foldl (registerRound keys) { n1 := right, n2 := left } := registers_foldl_roundPair keys _ 16
  rw [encRegisters_eq_exchanged, ← hrounds]
  rfl

/-! ## The key order (R113) -/

theorem keyOrder_of_lt {j : Nat} (h : j < 24) : (keyOrder j).val = j % 8 := by
  simp [keyOrder, h]

theorem keyOrder_of_ge {j : Nat} (hlow : 24 ≤ j) (hhigh : j ≤ 31) : (keyOrder j).val = 31 - j := by
  simp [keyOrder, show ¬ j < 24 by omega, show 31 - j < 8 by omega]

/-- Settles O39: the table by evaluation, the formulas by `keyOrder_of_lt` and `keyOrder_of_ge`. -/
theorem keyOrderPattern : Obligations.KeyOrderPattern := by
  unfold Obligations.KeyOrderPattern
  exact ⟨by decide, fun j h => keyOrder_of_lt (by omega), fun j => keyOrder_of_ge⟩

/-! ## The P-transformation (R114, R115) -/

theorem byteOf_pTransform (w : Block) (k : Fin 8) (b : Fin 4) :
    byteOf (pTransform w)[k] b.val = byteOf (w[2 * b.val + k.val / 4]'(by omega)) (k.val % 4) := by
  rw [Fin.getElem_fin, pTransform_getElem, packBytes_byteOf]
  fin_cases b
  · simp
  · rfl
  · rfl
  · rfl

/-- Where R114 puts byte `j` of working word `i`: byte `i div 2` of key word `4 (i mod 2) + j`. -/
theorem byteOf_eq_byteOf_pTransform (w : Block) (i : Fin 8) (j : Fin 4) :
    byteOf w[i] j.val = byteOf ((pTransform w)[4 * (i.val % 2) + j.val]'(by omega)) (i.val / 2) := by
  have hmove := byteOf_pTransform w ⟨4 * (i.val % 2) + j.val, by omega⟩ ⟨i.val / 2, by omega⟩
  have hword : 2 * (i.val / 2) + (4 * (i.val % 2) + j.val) / 4 = i.val := by omega
  have hbyte : (4 * (i.val % 2) + j.val) % 4 = j.val := by omega
  simp only [Fin.getElem_fin, hword, hbyte] at hmove
  exact hmove.symm

theorem pTransform_injective : Function.Injective pTransform := by
  intro w w' heq
  apply Vector.ext
  intro i hi
  apply word_ext_bytes
  intro j
  have hw := byteOf_eq_byteOf_pTransform w ⟨i, hi⟩ j
  have hw' := byteOf_eq_byteOf_pTransform w' ⟨i, hi⟩ j
  rw [heq] at hw
  exact hw.trans hw'.symm

/-- Settles O41: the places by `byteOf_pTransform`; every byte of the vector is found again among those of the keys. -/
theorem pTransformPermutesBytes : Obligations.PTransformPermutesBytes := by
  unfold Obligations.PTransformPermutesBytes
  exact ⟨byteOf_pTransform, fun _ _ heq => pTransform_injective heq⟩

end Sys2Proof.Machine
end

section
/-! PROOFS. The compression function (42_compression.md rules R121 to R130). A vector is its sixteen halfwords, so the LFSR round is read,
and shown linear, one halfword at a time; the four encryptions pass to the register form by the agreement of the two engines (R112). -/

namespace Sys2Proof.Machine

/-! ## The A-transformation (R121, R122) -/

/-- Settles O42: R121 is the definition, and R122 is R121 with the elements of `aTransform y` for those of `y`. -/
theorem aTransformOnceAndTwice : Obligations.ATransformOnceAndTwice := by
  unfold Obligations.ATransformOnceAndTwice
  exact fun y => ⟨rfl, rfl⟩

/-! ## A vector as its halfwords (R9, R10) -/

theorem highHalf_append_lowHalf (w : Word) : highHalf w ++ lowHalf w = w :=
  (BitVec.extractLsb'_append_extractLsb'_eq_extractLsb' (Nat.zero_add 16).symm).trans BitVec.extractLsb'_eq_self

theorem block_ext_halfwords {x y : Block} (h : ∀ j : Fin 16, halfwordOf x j = halfwordOf y j) : x = y := by
  apply Vector.ext
  intro i hi
  have hlow : lowHalf x[i] = lowHalf y[i] := by simpa only [halfwordOf_even, hi] using h ⟨2 * i, by omega⟩
  have hhigh : highHalf x[i] = highHalf y[i] := by simpa only [halfwordOf_odd, hi] using h ⟨2 * i + 1, by omega⟩
  rw [← highHalf_append_lowHalf x[i], hlow, hhigh, highHalf_append_lowHalf]

theorem halfwordOf_xorBlock (x y : Block) (j : Fin 16) :
    halfwordOf (xorBlock x y) j = halfwordOf x j ^^^ halfwordOf y j := by
  simp [halfwordOf, BitVec.extractLsb'_xor]

/-! ## The LFSR round (R124) -/

theorem lowHalf_psi (y : Block) (i : Nat) (hi : i < 8) : lowHalf (psi y)[i] = highHalf y[i] := by
  rcases (show i < 7 ∨ i = 7 by omega) with hlt | rfl
  · rw [psi_getElem y i hlt, lowHalf_append]
  · rw [psi_getElem_seven, lowHalf_append]

theorem highHalf_psi (y : Block) (i : Nat) (hi : i < 7) : highHalf (psi y)[i] = lowHalf y[i + 1] := by
  rw [psi_getElem y i hi, highHalf_append]

theorem halfwordOf_psi (y : Block) (j : Nat) (hj : j < 15) :
    halfwordOf (psi y) ⟨j, by omega⟩ = halfwordOf y ⟨j + 1, by omega⟩ := by
  obtain ⟨i, rfl | rfl⟩ := Nat.even_or_odd' j
  · rw [halfwordOf_even _ i (by omega), halfwordOf_odd _ i (by omega), lowHalf_psi]
  · rw [halfwordOf_odd _ i (by omega), highHalf_psi _ i (by omega)]
    exact (halfwordOf_even y (i + 1) (by omega)).symm

theorem halfwordOf_psi_top (y : Block) :
    halfwordOf (psi y) 15 =
      halfwordOf y 0 ^^^ halfwordOf y 1 ^^^ halfwordOf y 2 ^^^ halfwordOf y 3 ^^^ halfwordOf y 12 ^^^ halfwordOf y 15 := by
  have hfeedback : halfwordOf (psi y) 15 = psiFeedback y :=
    (halfwordOf_odd (psi y) 7 (by omega)).trans (by rw [psi_getElem_seven, highHalf_append])
  rw [hfeedback]
  rfl

/-- A round moves each halfword or adds six of them, and both commute with the exclusive or of two vectors. -/
theorem psi_xorBlock (a b : Block) : psi (xorBlock a b) = xorBlock (psi a) (psi b) := by
  apply block_ext_halfwords
  rintro ⟨j, hj⟩
  rw [halfwordOf_xorBlock]
  rcases (show j < 15 ∨ j = 15 by omega) with hlt | rfl
  · simp only [halfwordOf_psi _ j hlt, halfwordOf_xorBlock]
  · change halfwordOf _ 15 = halfwordOf _ 15 ^^^ halfwordOf _ 15
    simp only [halfwordOf_psi_top, halfwordOf_xorBlock]
    ac_rfl

/-- Settles O43, by `halfwordOf_psi`, `halfwordOf_psi_top` and `psi_xorBlock`. -/
theorem psiShiftsHalfwords : Obligations.PsiShiftsHalfwords := by
  unfold Obligations.PsiShiftsHalfwords
  exact ⟨fun y => ⟨halfwordOf_psi y, halfwordOf_psi_top y⟩, psi_xorBlock⟩

/-! ## The stages (R126 to R130) -/

theorem encryptBlock_right (left right : Word) (keys : Block) :
    (encryptBlock left right keys).right = (encRegisters right left keys).n1 :=
  congrArg Halves.right (engineEqualsRegisterForm left right keys)

theorem encryptBlock_left (left right : Word) (keys : Block) :
    (encryptBlock left right keys).left = (encRegisters right left keys).n2 :=
  congrArg Halves.left (engineEqualsRegisterForm left right keys)

/-- Encryption `i` in the register form: its word of `h` with the lower index goes in and comes out as `n1` (R127). -/
theorem encryptedHash_getElem_even (h m : Block) (i : Fin 4) :
    (encryptedHash h m)[2 * i.val] =
      (encRegisters (h[2 * i.val]) (h[2 * i.val + 1]) (keySets h m)[i]).n1 := by
  rw [← encryptBlock_right]
  fin_cases i <;> rfl

theorem encryptedHash_getElem_odd (h m : Block) (i : Fin 4) :
    (encryptedHash h m)[2 * i.val + 1] =
      (encRegisters (h[2 * i.val]) (h[2 * i.val + 1]) (keySets h m)[i]).n2 := by
  rw [← encryptBlock_left]
  fin_cases i <;> rfl

/-- Settles O44: the key sets and the three mixing stages are the definitions', the elements of `s` are `encryptedHash_getElem_even`
and `encryptedHash_getElem_odd`. -/
theorem compressStages : Obligations.CompressStages := by
  unfold Obligations.CompressStages
  intro h m
  have hlow := encryptedHash_getElem_even h m
  have hhigh := encryptedHash_getElem_odd h m
  exact ⟨_, _, _, _, _, _, _, _, _, _, encryptedHash h m, rfl, rfl, rfl, rfl, rfl, rfl, rfl, rfl, rfl, rfl,
    hlow 0, hhigh 0, hlow 1, hhigh 1, hlow 2, hhigh 2, hlow 3, hhigh 3, rfl⟩

end Sys2Proof.Machine
end

section
/-! PROOFS. Operands and characters (43_hash_stream.md rules R144, R145, R148; 30_encoding.md rule R87): the digits and the text expansion
as numbers, and what an operand is in the mode of its session. -/

namespace Sys2Proof.Machine

/-! ## Hex digits (R144, R148) -/

/-- Settles O48, range by range: in each the subtraction does not wrap and leaves at most 15. -/
theorem hexvalRanges : Obligations.HexvalRanges := by
  unfold Obligations.HexvalRanges
  intro c
  simp only [hexval, BitVec.le_def, BitVec.reduceToNat]
  refine ⟨fun h => ?decimal, fun h => ?upper, fun h => ?lower, fun h0 hA ha => ?none⟩
  case decimal =>
    refine ⟨_, if_pos h, ?_⟩
    simp only [BitVec.toNat_setWidth, BitVec.toNat_sub, BitVec.reduceToNat]
    omega
  case upper =>
    refine ⟨_, (if_neg (by omega)).trans (if_pos h), ?_⟩
    simp only [BitVec.toNat_setWidth, BitVec.toNat_add, BitVec.toNat_sub, BitVec.reduceToNat]
    omega
  case lower =>
    refine ⟨_, (if_neg (by omega)).trans ((if_neg (by omega)).trans (if_pos h)), ?_⟩
    simp only [BitVec.toNat_setWidth, BitVec.toNat_add, BitVec.toNat_sub, BitVec.reduceToNat]
    omega
  case none => rw [if_neg h0, if_neg hA, if_neg ha]

theorem hexchar_toNat (n : Nibble) :
    (hexchar n).toNat = if n.toNat ≤ 9 then 0x30 + n.toNat else 0x61 + (n.toNat - 10) := by
  revert n; decide

theorem hexval_hexchar (n : Nibble) : hexval ((hexchar n).setWidth 16) = some n := by
  revert n; decide

/-- A byte of a word is the word shifted right and cut to 8 bits (R9, R61). -/
theorem byteOf_eq_setWidth_ushiftRight (w : Word) (j : Nat) : byteOf w j = (w >>> (8 * j)).setWidth 8 := by
  apply BitVec.eq_of_getLsbD_eq
  intro i hi
  simp [byteOf, hi]

theorem renderDigest_high (h : Block) (k : Fin 32) :
    (renderDigest h)[2 * k.val]'(by omega) = hexchar ((digestByte h k).extractLsb' 4 4) := by
  simp [renderDigest_getElem]

theorem renderDigest_low (h : Block) (k : Fin 32) :
    (renderDigest h)[2 * k.val + 1]'(by omega) = hexchar ((digestByte h k).extractLsb' 0 4) := by
  simp [renderDigest_getElem, Nat.mul_add_div]

/-- Settles O47: the two characters of a digest byte, and the 16 nibbles with their characters. -/
theorem digestTextIsLowercaseHex : Obligations.DigestTextIsLowercaseHex := by
  unfold Obligations.DigestTextIsLowercaseHex
  exact ⟨fun h k => ⟨renderDigest_high h k, renderDigest_low h k, byteOf_eq_setWidth_ushiftRight _ _⟩,
    fun n => ⟨hexchar_toNat n, hexval_hexchar n⟩⟩

theorem pairByte_toNat (high low : Nibble) : (pairByte high low).toNat = 16 * high.toNat + low.toNat := by
  rw [pairByte, BitVec.toNat_append, ← Nat.shiftLeft_add_eq_or_of_lt low.isLt, Nat.shiftLeft_eq, Nat.mul_comm]

/-- A byte is the pair of its two digits, first digit high. -/
theorem pairByte_nibbles (x : Byte) : pairByte (x.extractLsb' 4 4) (x.extractLsb' 0 4) = x :=
  BitVec.extractLsb'_append_extractLsb'_eq_extractLsb' (x := x) (by decide) |>.trans BitVec.extractLsb'_eq_self

/-! ## The text expansion (R145) -/

/-- The marker bits `0x80`, `0xC0` and `0xE0` stand above the payload, so the or is a sum. -/
theorem continuationByte_toNat (x : BitVec 6) : ((0x80 : Byte) ||| x.setWidth 8).toNat = 0x80 + x.toNat := by
  revert x; decide

theorem twoByteLead_toNat (x : BitVec 5) : ((0xC0 : Byte) ||| x.setWidth 8).toNat = 0xC0 + x.toNat := by
  revert x; decide

theorem threeByteLead_toNat (x : BitVec 4) : ((0xE0 : Byte) ||| x.setWidth 8).toNat = 0xE0 + x.toNat := by
  revert x; decide

/-- Settles O49, by the pattern of each range; the field of a code unit is a quotient and a remainder of its number. -/
theorem expandPatterns : Obligations.ExpandPatterns := by
  unfold Obligations.ExpandPatterns
  intro c
  have hc := c.isLt
  simp only [expand, BitVec.le_def, BitVec.reduceToNat]
  refine ⟨fun h => ?one, fun ⟨hlow, hhigh⟩ => ?two, fun h => ?three⟩
  case one =>
    rw [if_pos h]
    simp only [List.map_cons, List.map_nil, BitVec.extractLsb'_toNat, Nat.shiftRight_zero]
    rw [Nat.mod_eq_of_lt (by omega)]
  case two =>
    rw [if_neg (by omega), if_pos hhigh]
    simp only [List.map_cons, List.map_nil, twoByteLead_toNat, continuationByte_toNat, BitVec.extractLsb'_toNat,
      Nat.shiftRight_eq_div_pow, Nat.reducePow, Nat.div_one]
    rw [Nat.mod_eq_of_lt (by omega)]
  case three =>
    rw [if_neg (by omega), if_neg (by omega)]
    simp only [List.map_cons, List.map_nil, threeByteLead_toNat, continuationByte_toNat, BitVec.extractLsb'_toNat,
      Nat.shiftRight_eq_div_pow, Nat.reducePow, Nat.div_one]
    rw [Nat.mod_eq_of_lt (by omega)]

/-! ## The operand by mode (R87, R141) -/

theorem isSurrogate_iff (arg : Half) : isSurrogate arg = true ↔ 0xD800 ≤ arg ∧ arg ≤ 0xDFFF := by
  simp [isSurrogate]

section hashDatum
variable {c : HashCtx} {arg : Half}

theorem hashDatum_raw_of_le (hm : c.hmode = .raw) (h : arg.toNat ≤ 0xFF) :
    hashDatum c arg = .bytes [arg.extractLsb' 0 8] := by
  have hle : ¬ arg > 0x00FF := by simpa [BitVec.lt_def] using h
  rw [hashDatum, hm]
  exact if_neg hle

theorem hashDatum_raw_of_gt (hm : c.hmode = .raw) (h : arg.toNat > 0xFF) : hashDatum c arg = .bad .eRange := by
  have hgt : arg > 0x00FF := by simpa [BitVec.lt_def] using h
  rw [hashDatum, hm]
  exact if_pos hgt

theorem hashDatum_hex_of_none (hm : c.hmode = .hex) (h : hexval arg = none) : hashDatum c arg = .bad .eHex := by
  simp [hashDatum, hm, hexDatum, h]

theorem hashDatum_hex_first {d : Nibble} (hm : c.hmode = .hex) (hnv : c.hnv = false) (h : hexval arg = some d) :
    hashDatum c arg = .firstDigit d := by
  simp [hashDatum, hm, hexDatum, h, hnv]

theorem hashDatum_hex_second {d : Nibble} (hm : c.hmode = .hex) (hnv : c.hnv = true) (h : hexval arg = some d) :
    hashDatum c arg = .bytes [pairByte c.hnib d] := by
  simp [hashDatum, hm, hexDatum, h, hnv]

theorem hashDatum_text_of_surrogate (hm : c.hmode = .text) (h : 0xD800 ≤ arg ∧ arg ≤ 0xDFFF) :
    hashDatum c arg = .bad .eCodepoint := by
  rw [hashDatum, hm]
  exact if_pos ((isSurrogate_iff arg).mpr h)

theorem hashDatum_text_of_not_surrogate (hm : c.hmode = .text) (h : ¬ (0xD800 ≤ arg ∧ arg ≤ 0xDFFF)) :
    hashDatum c arg = .bytes (expand arg) := by
  rw [hashDatum, hm]
  exact if_neg (h ∘ (isSurrogate_iff arg).mp)

end hashDatum

end Sys2Proof.Machine
end

section
/-! PROOFS. The hash commands (43_hash_stream.md rules R140, R141, R146): H_INIT; H_PUT, mode by mode; and the operand errors. -/

namespace Sys2Proof.Machine

/-! ## H_INIT -/

theorem hashInit_opens (mode : HashMode) (s : State) :
    ∃ t, hashInit mode s = .next t ∧ t.hashCtx = HashCtx.opened mode ∧ t.crcCtx = s.crcCtx ∧ t.err = s.err ∧
      Answers s t .ok 0 :=
  ⟨_, rfl, rfl, rfl, rfl, rfl⟩

/-- Settles O12: each of the three commands is `hashInit` of its mode, and the context it opens is zero but for the mode and HS. -/
theorem hInitOpensSession : Obligations.HInitOpensSession := by
  unfold Obligations.HInitOpensSession
  intro i mode hrow s
  have hexec : exec i s = hashInit mode s := by
    obtain ⟨rfl, rfl⟩ | ⟨rfl, rfl⟩ | ⟨rfl, rfl⟩ := hrow <;> rfl
  obtain ⟨t, ht, hctx, hcrc, herr, hans⟩ := hashInit_opens mode s
  refine ⟨t, hexec.trans ht, ?_⟩
  rw [hctx]
  exact ⟨fun k => ⟨replicate_zero_getElem k, replicate_zero_getElem k⟩, replicate_zero_getElem, rfl, rfl, rfl,
    replicate_zero_getElem, rfl, rfl, hcrc, herr, hans⟩

/-! ## H_PUT that succeeds, by mode -/

theorem HashCtx.latchUsed_of_hex {c : HashCtx} (hm : c.hmode = .hex) : c.latchUsed = c.withLatch false 0 := if_pos hm

theorem HashCtx.latchUsed_of_ne_hex {c : HashCtx} (hm : c.hmode ≠ .hex) : c.latchUsed = c := if_neg hm

section success
variable {s : State} {arg : Half}

theorem execHPut_raw (hs : s.hashCtx.hs = .active) (hm : s.hashCtx.hmode = .raw) (harg : arg.toNat ≤ 0xFF)
    (room : s.hashCtx.cnt.toNat + 1 ≤ 2 ^ 61 - 1) :
    execHPut arg s = .next (respond (s.withHash (absorb s.hashCtx (arg.extractLsb' 0 8))) .ok 0) := by
  rw [execHPut_of_bytes hs (hashDatum_raw_of_le hm harg) (not_lt.mpr room), HashCtx.latchUsed_of_ne_hex (by simp [hm])]
  rfl

theorem execHPut_hex_first {d : Nibble} (hs : s.hashCtx.hs = .active) (hm : s.hashCtx.hmode = .hex)
    (hnv : s.hashCtx.hnv = false) (hd : hexval arg = some d) :
    execHPut arg s = .next (respond (s.withHash (s.hashCtx.withLatch true d)) .ok 0) :=
  execHPut_of_firstDigit hs (hashDatum_hex_first hm hnv hd)

theorem execHPut_hex_second {d : Nibble} (hs : s.hashCtx.hs = .active) (hm : s.hashCtx.hmode = .hex)
    (hnv : s.hashCtx.hnv = true) (hd : hexval arg = some d) (room : s.hashCtx.cnt.toNat + 1 ≤ 2 ^ 61 - 1) :
    execHPut arg s =
      .next (respond (s.withHash (absorb (s.hashCtx.withLatch false 0) (pairByte s.hashCtx.hnib d))) .ok 0) := by
  rw [execHPut_of_bytes hs (hashDatum_hex_second hm hnv hd) (not_lt.mpr room), HashCtx.latchUsed_of_hex hm]
  rfl

theorem execHPut_text (hs : s.hashCtx.hs = .active) (hm : s.hashCtx.hmode = .text)
    (harg : ¬ (0xD800 ≤ arg ∧ arg ≤ 0xDFFF)) (room : s.hashCtx.cnt.toNat + (expand arg).length ≤ 2 ^ 61 - 1) :
    execHPut arg s = .next (respond (s.withHash (absorbAll s.hashCtx (expand arg))) .ok 0) := by
  rw [execHPut_of_bytes hs (hashDatum_text_of_not_surrogate hm harg) (not_lt.mpr room),
    HashCtx.latchUsed_of_ne_hex (by simp [hm])]

end success

/-- Settles O13, by `execHPut_raw`. -/
theorem hPutRawAbsorbsByte : Obligations.HPutRawAbsorbsByte := by
  unfold Obligations.HPutRawAbsorbsByte
  exact fun s arg hs hm harg room => ⟨_, execHPut_raw hs hm harg room, rfl, rfl, rfl, rfl⟩

/-- Settles O14, by `execHPut_hex_first`. -/
theorem hPutHexLatchesFirstDigit : Obligations.HPutHexLatchesFirstDigit := by
  unfold Obligations.HPutHexLatchesFirstDigit
  exact fun s arg d hs hm hnv hd => ⟨_, execHPut_hex_first hs hm hnv hd, rfl, rfl, rfl, rfl⟩

/-- Settles O15, by `execHPut_hex_second` and the number of a pair. -/
theorem hPutHexAbsorbsPair : Obligations.HPutHexAbsorbsPair := by
  unfold Obligations.HPutHexAbsorbsPair
  exact fun s arg d hs hm hnv hd room =>
    ⟨_, pairByte s.hashCtx.hnib d, execHPut_hex_second hs hm hnv hd room, pairByte_toNat _ _, rfl, rfl, rfl, rfl⟩

/-- Settles O16, by `execHPut_text`. -/
theorem hPutTextAbsorbsExpansion : Obligations.HPutTextAbsorbsExpansion := by
  unfold Obligations.HPutTextAbsorbsExpansion
  exact fun s arg hs hm harg room => ⟨_, execHPut_text hs hm harg room, rfl, rfl, rfl, rfl⟩

/-! ## Errors of an ACTIVE session -/

/-- Settles O18: in each case the operand is bad, or its bytes find no room, and the command ends with `sessionFailHash`. -/
theorem hPutOperandErrorFailsSession : Obligations.HPutOperandErrorFailsSession := by
  unfold Obligations.HPutOperandErrorFailsSession
  intro s arg code hs hcase
  have hfail : execHPut arg s = .next (sessionFailHash s code) := by
    obtain ⟨hm, harg, rfl⟩ | ⟨hm, harg, rfl⟩ | ⟨hm, harg, rfl⟩ | ⟨hm, harg, full, rfl⟩ | ⟨hm, harg, hnv, full, rfl⟩ |
      ⟨hm, harg, full, rfl⟩ := hcase
    · exact execHPut_of_bad hs (hashDatum_raw_of_gt hm harg)
    · exact execHPut_of_bad hs (hashDatum_hex_of_none hm harg)
    · exact execHPut_of_bad hs (hashDatum_text_of_surrogate hm harg)
    · exact execHPut_of_no_room hs (hashDatum_raw_of_le hm harg) full
    · obtain ⟨d, hd⟩ := Option.ne_none_iff_exists'.mp harg
      exact execHPut_of_no_room hs (hashDatum_hex_second hm hnv hd) full
    · exact execHPut_of_no_room hs (hashDatum_text_of_not_surrogate hm harg) full
  exact ⟨_, hfail, rfl, rfl, rfl, rfl⟩

/-- Settles O20: each FINAL ends with the failure of its own session. -/
theorem finalWithUnpairedDigitFails : Obligations.FinalWithUnpairedDigitFails := by
  unfold Obligations.FinalWithUnpairedDigitFails
  exact ⟨fun s hs hm hnv => ⟨_, execHFinal_of_unpaired hs ⟨hm, hnv⟩, rfl, rfl, rfl, rfl⟩,
    fun s hs hm hnv => ⟨_, execCFinal_of_unpaired hs ⟨hm, hnv⟩, rfl, rfl, rfl, rfl⟩⟩

end Sys2Proof.Machine
end

section
/-! PROOFS. The buffer, the sum and the length block (43_hash_stream.md rules R138, R139, R146, R147). -/

namespace Sys2Proof.Machine

/-! ## The sum (R138) -/

theorem carryInto_succ (x y : Block) (i : Fin 8) :
    carryInto x y (i.val + 1) = (x[i].toNat + y[i].toNat + carryInto x y i.val) / 2 ^ 32 := by
  simp [carryInto]

/-- Two words and a carry of at most 1 carry at most 1. -/
theorem carryInto_le_one (x y : Block) (i : Nat) : carryInto x y i ≤ 1 := by
  induction i with
  | zero => exact Nat.zero_le 1
  | succ i ih =>
    have hx := ((x[i]?).getD 0).isLt
    have hy := ((y[i]?).getD 0).isLt
    rw [carryInto]
    omega

theorem add256_word (x y : Block) (i : Fin 8) :
    (add256 x y)[i].toNat = (x[i].toNat + y[i].toNat + carryInto x y i.val) % 2 ^ 32 := by
  rw [Fin.getElem_fin, add256_getElem, BitVec.toNat_ofNat]
  rfl

/-- One link of the chain: the word and the carry out are together the two words and the carry in. -/
theorem add256_word_add_carry (x y : Block) (i : Fin 8) :
    (add256 x y)[i].toNat + 2 ^ 32 * carryInto x y (i.val + 1) = x[i].toNat + y[i].toNat + carryInto x y i.val := by
  rw [add256_word, carryInto_succ, Nat.mod_add_div]

theorem blockValue_lt (y : Block) : blockValue y < 2 ^ 256 := by
  have h0 := y[0].isLt
  have h1 := y[1].isLt
  have h2 := y[2].isLt
  have h3 := y[3].isLt
  have h4 := y[4].isLt
  have h5 := y[5].isLt
  have h6 := y[6].isLt
  have h7 := y[7].isLt
  rw [blockValue]
  omega

/-- The links put together: the first `n` words of the sum and the carry out of them are the first `n` words of both. -/
theorem sum_add256_words_add_carry (x y : Block) (n : Nat) (hn : n ≤ 8) :
    ∑ i : Fin n, (add256 x y)[i.val].toNat * 2 ^ (32 * i.val) + 2 ^ (32 * n) * carryInto x y n =
      ∑ i : Fin n, x[i.val].toNat * 2 ^ (32 * i.val) + ∑ i : Fin n, y[i.val].toNat * 2 ^ (32 * i.val) := by
  induction n with
  | zero => rfl
  | succ n ih =>
    have hlink := add256_word_add_carry x y ⟨n, hn⟩
    have ih := ih (Nat.le_of_succ_le hn)
    simp only [Fin.getElem_fin] at hlink
    simp only [Fin.sum_univ_castSucc, Fin.val_castSucc, Fin.val_last]
    rw [Nat.mul_succ, pow_add]
    linear_combination ih + 2 ^ (32 * n) * hlink

theorem blockValue_add256_add_carry (x y : Block) :
    blockValue (add256 x y) + 2 ^ 256 * carryInto x y 8 = blockValue x + blockValue y := by
  simpa only [blockValue_eq_sum, Fin.getElem_fin] using sum_add256_words_add_carry x y 8 (le_refl 8)

/-- Settles O45: the carries are `carryInto`, and the carry out of word 7 is what the sum modulo `2^256` drops. -/
theorem add256IsAdditionMod2Pow256 : Obligations.Add256IsAdditionMod2Pow256 := by
  unfold Obligations.Add256IsAdditionMod2Pow256
  intro x y
  refine ⟨⟨carryInto x y, rfl, fun i => ⟨add256_word x y i, carryInto_succ x y i, carryInto_le_one x y _⟩⟩, ?_⟩
  rw [← blockValue_add256_add_carry, Nat.add_mul_mod_self_left, Nat.mod_eq_of_lt (blockValue_lt _)]

/-! ## The length block (R147) -/

theorem lenblock_low (cnt : BitVec 61) : (lenblock cnt)[0].toNat = 8 * cnt.toNat % 2 ^ 32 := by
  have h : (lenblock cnt)[0].toNat = (cnt.toNat % 2 ^ 29) <<< 3 :=
    (BitVec.toNat_append (cnt.extractLsb' 0 29) (0 : BitVec 3)).trans (by simp)
  rw [h, Nat.shiftLeft_eq]
  omega

theorem lenblock_high (cnt : BitVec 61) : (lenblock cnt)[1].toNat = 8 * cnt.toNat / 2 ^ 32 := by
  have h : (lenblock cnt)[1].toNat = cnt.toNat / 2 ^ 29 % 2 ^ 32 := by
    simp [lenblock, Nat.shiftRight_eq_div_pow]
  have := cnt.isLt
  rw [h]
  omega

theorem lenblock_zero (cnt : BitVec 61) (i : Nat) (hi : i < 8) (h2 : 2 ≤ i) : (lenblock cnt)[i] = 0 := by
  interval_cases i <;> rfl

/-- Settles O50: the two words are the remainder and the quotient of the bit length by `2^32`. -/
theorem lengthBlockIsBitLength : Obligations.LengthBlockIsBitLength := by
  unfold Obligations.LengthBlockIsBitLength
  intro cnt
  refine ⟨lenblock_low cnt, lenblock_high cnt, lenblock_zero cnt, ?_⟩
  have hzero (i : Nat) (hi : i < 8) (h2 : 2 ≤ i) : (lenblock cnt)[i].toNat = 0 := by rw [lenblock_zero cnt i hi h2]; rfl
  simp only [blockValue, lenblock_low, lenblock_high, hzero, Nat.le_refl, Nat.reduceLeDiff]
  omega

/-! ## Absorbing a byte (R139) -/

/-- Settles O17: below the 32nd byte `absorb` is `pushByte`, at the 32nd it takes in the block of the full buffer. -/
theorem absorbTakesOneByte : Obligations.AbsorbTakesOneByte := by
  unfold Obligations.AbsorbTakesOneByte
  intro c x
  refine ⟨absorb_cnt c x, fun h => ?inside, fun h => ?last, absorb_hs c x, absorb_hmode c x, absorb_hnv c x, absorb_hnib c x,
    absorb_hout c x⟩
  case inside =>
    rw [absorb_eq_pushByte h]
    refine ⟨fun j => ?_, rfl, rfl⟩
    simp only [HashCtx.pushByte_buf, Fin.getElem_fin, Vector.getElem_set, eq_comm]
  case last =>
    have hbuf : (c.pushByte x).buf = c.buf.set 31 x := by simp only [HashCtx.pushByte_buf, h]
    rw [absorb_eq_processBlock h, hbuf]
    exact ⟨replicate_zero_getElem, rfl, rfl⟩

/-! ## H_FINAL (R146) -/

theorem processPartial_of_whole {c : HashCtx} (h : c.cnt.toNat % 32 = 0) : c.processPartial = c := if_neg (not_not_intro h)

theorem processPartial_of_partial {c : HashCtx} (h : c.cnt.toNat % 32 ≠ 0) :
    c.processPartial = c.processBlock (blockOfBuf c.buf) := if_pos h

theorem processPartial_cnt (c : HashCtx) : c.processPartial.cnt = c.cnt := finished_cnt c

/-- Settles O19: the partial block is taken in if one remains, and `finished` compresses the rest. -/
theorem hFinalProducesDigest : Obligations.HFinalProducesDigest := by
  unfold Obligations.HFinalProducesDigest
  intro s hs paired
  refine ⟨_, s.hashCtx.processPartial.h, execHFinal_of_paired hs paired, fun h => ?whole, fun h => ?part, ?digest, rfl, rfl,
    finished_buf _, finished_cnt _, finished_hmode _, finished_hnv _, finished_hnib _, rfl, rfl, rfl⟩
  case whole =>
    have hpart := processPartial_of_whole h
    exact ⟨congrArg HashCtx.h hpart, (finished_sum s.hashCtx).trans (congrArg HashCtx.sum hpart)⟩
  case part =>
    have hpart := processPartial_of_partial h
    exact ⟨congrArg HashCtx.h hpart, (finished_sum s.hashCtx).trans (congrArg HashCtx.sum hpart)⟩
  case digest =>
    have hcnt := processPartial_cnt s.hashCtx
    exact (finished_h s.hashCtx).trans (by rw [hcnt]; rfl)

end Sys2Proof.Machine
end

section
/-! PROOFS. Runs of H_PUT commands (43_hash_stream.md rule R151): in each mode a list of operands feeds the session the bytes it stands
for. Two sessions fed the same bytes, whatever their modes, go on agreeing in H, SUM, BUF and CNT. -/

namespace Sys2Proof.Machine

/-! ## Contexts that agree -/

/-- The two contexts agree in the elements that message bytes go into; session, mode, latch and HOUT may differ. -/
structure HashCtx.Agrees (c d : HashCtx) : Prop where
  h : c.h = d.h
  sum : c.sum = d.sum
  buf : c.buf = d.buf
  cnt : c.cnt = d.cnt

theorem HashCtx.Agrees.refl (c : HashCtx) : c.Agrees c := ⟨rfl, rfl, rfl, rfl⟩

theorem HashCtx.Agrees.symm {c d : HashCtx} (hcd : c.Agrees d) : d.Agrees c :=
  ⟨hcd.h.symm, hcd.sum.symm, hcd.buf.symm, hcd.cnt.symm⟩

theorem HashCtx.Agrees.trans {c d e : HashCtx} (hcd : c.Agrees d) (hde : d.Agrees e) : c.Agrees e :=
  ⟨hcd.h.trans hde.h, hcd.sum.trans hde.sum, hcd.buf.trans hde.buf, hcd.cnt.trans hde.cnt⟩

/-- The elements in which the two may differ are those that absorbing does not look at (`absorbAll_congr`). -/
theorem HashCtx.Agrees.absorbAll {c d : HashCtx} (hcd : c.Agrees d) (bs : List Byte) :
    (absorbAll c bs).Agrees (absorbAll d bs) := by
  have hd : { c with hs := d.hs, hmode := d.hmode, hnv := d.hnv, hnib := d.hnib, hout := d.hout } = d := by
    rw [hcd.h, hcd.sum, hcd.buf, hcd.cnt]
  have habsorb := absorbAll_congr c bs d.hs d.hmode d.hnv d.hnib d.hout
  rw [hd] at habsorb
  rw [habsorb]
  exact ⟨rfl, rfl, rfl, rfl⟩

/-! ## Operands that feed bytes -/

/-- From `s` to `t` the hash session took in the bytes `bs` and goes on in its mode with its latch as it was; the CRC context and ERR
are unchanged. -/
structure Absorbed (s : State) (bs : List Byte) (t : State) : Prop where
  agrees : t.hashCtx.Agrees (absorbAll s.hashCtx bs)
  hs : t.hashCtx.hs = s.hashCtx.hs
  hmode : t.hashCtx.hmode = s.hashCtx.hmode
  hnv : t.hashCtx.hnv = s.hashCtx.hnv
  crcCtx : t.crcCtx = s.crcCtx
  err : t.err = s.err

theorem Absorbed.refl (s : State) : Absorbed s [] s := ⟨.refl _, rfl, rfl, rfl, rfl, rfl⟩

theorem Absorbed.trans {s t u : State} {xs ys : List Byte} (hst : Absorbed s xs t) (htu : Absorbed t ys u) :
    Absorbed s (xs ++ ys) u where
  agrees := by
    rw [absorbAll_append]
    exact htu.agrees.trans (hst.agrees.absorbAll ys)
  hs := htu.hs.trans hst.hs
  hmode := htu.hmode.trans hst.hmode
  hnv := htu.hnv.trans hst.hnv
  crcCtx := htu.crcCtx.trans hst.crcCtx
  err := htu.err.trans hst.err

/-- A command that absorbs bytes and answers OK, in a mode that leaves the latch alone. -/
theorem absorbed_of_respond (s : State) (bs : List Byte) :
    Absorbed s bs (respond (s.withHash (absorbAll s.hashCtx bs)) .ok 0) where
  agrees := .refl _
  hs := absorbAll_hs s.hashCtx bs
  hmode := absorbAll_hmode s.hashCtx bs
  hnv := absorbAll_hnv s.hashCtx bs
  crcCtx := rfl
  err := rfl

/-- An ACTIVE session of the mode, with no digit unpaired and room for `n` bytes more. -/
structure HashCtx.Ready (mode : HashMode) (n : Nat) (c : HashCtx) : Prop where
  hs : c.hs = .active
  hmode : c.hmode = mode
  latch_clear : mode = .hex → c.hnv = false
  room : c.cnt.toNat + n ≤ 2 ^ 61 - 1

theorem HashCtx.Ready.of_le {mode : HashMode} {m n : Nat} {c : HashCtx} (h : c.Ready mode n) (hmn : m ≤ n) : c.Ready mode m :=
  ⟨h.hs, h.hmode, h.latch_clear, (Nat.add_le_add_left hmn _).trans h.room⟩

/-- Having taken in the first bytes, the session has room for the others. -/
theorem Absorbed.ready {mode : HashMode} {s t : State} {bs : List Byte} {n : Nat} (hst : Absorbed s bs t)
    (h : s.hashCtx.Ready mode (bs.length + n)) : t.hashCtx.Ready mode n where
  hs := hst.hs.trans h.hs
  hmode := hst.hmode.trans h.hmode
  latch_clear hm := hst.hnv.trans (h.latch_clear hm)
  room := by
    have hroom := h.room
    rw [hst.agrees.cnt, absorbAll_cnt (by omega)]
    omega

/-- In a session of the mode that is ready for them, H_PUTs of the operands complete and take in the bytes. -/
def Feeds (mode : HashMode) (args : List Half) (bs : List Byte) : Prop :=
  ∀ s : State, s.hashCtx.Ready mode bs.length → ∃ t, runInstrs (hashPuts args) s = .next t ∧ Absorbed s bs t

theorem Feeds.nil (mode : HashMode) : Feeds mode [] [] := fun s _ => ⟨s, rfl, .refl s⟩

theorem hashPuts_append (as bs : List Half) : hashPuts (as ++ bs) = hashPuts as ++ hashPuts bs := List.map_append

theorem Feeds.append {mode : HashMode} {as bs : List Half} {xs ys : List Byte} (ha : Feeds mode as xs) (hb : Feeds mode bs ys) :
    Feeds mode (as ++ bs) (xs ++ ys) := by
  intro s hready
  rw [List.length_append] at hready
  obtain ⟨t, ht, hst⟩ := ha s (hready.of_le (Nat.le_add_right _ _))
  obtain ⟨u, hu, htu⟩ := hb t (hst.ready hready)
  refine ⟨u, ?_, hst.trans htu⟩
  rw [hashPuts_append, runInstrs_append ht]
  exact hu

/-- Sessions that agree, fed the same bytes in their two modes, both complete and agree again. -/
theorem Feeds.agree {mode mode' : HashMode} {args args' : List Half} {bs : List Byte} (hf : Feeds mode args bs)
    (hf' : Feeds mode' args' bs) {s s' : State} (hs : s.hashCtx.Ready mode bs.length)
    (hs' : s'.hashCtx.Ready mode' bs.length) (agrees : s.hashCtx.Agrees s'.hashCtx) :
    ∃ t t', runInstrs (hashPuts args) s = .next t ∧ runInstrs (hashPuts args') s' = .next t' ∧
      t.hashCtx.Agrees t'.hashCtx ∧ Absorbed s bs t ∧ Absorbed s' bs t' := by
  obtain ⟨t, ht, hst⟩ := hf s hs
  obtain ⟨t', ht', hst'⟩ := hf' s' hs'
  exact ⟨t, t', ht, ht', (hst.agrees.trans (agrees.absorbAll bs)).trans hst'.agrees.symm, hst, hst'⟩

/-! ## The three modes -/

theorem runInstrs_hPut {arg : Half} {s t : State} (h : execHPut arg s = .next t) (args : List Half) :
    runInstrs (hashPuts (arg :: args)) s = runInstrs (hashPuts args) t := runInstrs_cons h

theorem feeds_raw_byte (x : Byte) : Feeds .raw [x.setWidth 16] [x] := by
  intro s hready
  have hle : (x.setWidth 16).toNat ≤ 0xFF := by
    rw [BitVec.toNat_setWidth]
    omega
  have hbyte : (x.setWidth 16).extractLsb' 0 8 = x :=
    (BitVec.extractLsb'_setWidth_of_le (by decide)).trans BitVec.extractLsb'_eq_self
  refine ⟨_, runInstrs_hPut (execHPut_raw hready.hs hready.hmode hle hready.room) [], ?_⟩
  rw [hbyte]
  exact absorbed_of_respond s [x]

theorem feeds_raw (bytes : List Byte) : Feeds .raw (bytes.map fun x => x.setWidth 16) bytes := by
  induction bytes with
  | nil => exact .nil .raw
  | cons x bytes ih => exact (feeds_raw_byte x).append ih

theorem feeds_text_unit {c : Half} (hc : ¬ (0xD800 ≤ c ∧ c ≤ 0xDFFF)) : Feeds .text [c] (expand c) := fun s hready =>
  ⟨_, runInstrs_hPut (execHPut_text hready.hs hready.hmode hc hready.room) [], absorbed_of_respond s (expand c)⟩

theorem feeds_text {units : List Half} (hunits : ∀ c ∈ units, ¬ (0xD800 ≤ c ∧ c ≤ 0xDFFF)) :
    Feeds .text units (units.flatMap expand) := by
  induction units with
  | nil => exact .nil .text
  | cons c units ih =>
    obtain ⟨hc, hunits⟩ := List.forall_mem_cons.mp hunits
    exact (feeds_text_unit hc).append (ih hunits)

/-- Two digits: the first goes into the latch, the second completes the byte and leaves the latch clear, as it was. -/
theorem feeds_hex_pair {a b : Half} {x : Byte} (ha : hexval a = some (x.extractLsb' 4 4))
    (hb : hexval b = some (x.extractLsb' 0 4)) : Feeds .hex [a, b] [x] := by
  intro s hready
  have hnv := hready.latch_clear rfl
  have hfirst := execHPut_hex_first hready.hs hready.hmode hnv ha
  have hsecond := execHPut_hex_second (s := respond (s.withHash (s.hashCtx.withLatch true (x.extractLsb' 4 4))) .ok 0)
    hready.hs hready.hmode rfl hb hready.room
  have hbyte : pairByte (x.extractLsb' 4 4) (x.extractLsb' 0 4) = x := pairByte_nibbles x
  refine ⟨_, (runInstrs_hPut hfirst [b]).trans (runInstrs_hPut hsecond []), ?_⟩
  have hagrees : (s.hashCtx.withLatch false 0).Agrees s.hashCtx := ⟨rfl, rfl, rfl, rfl⟩
  exact
    { agrees := by
        simp only [respond_hashCtx, State.withHash_hashCtx, HashCtx.withLatch_hnib, hbyte]
        exact hagrees.absorbAll [x]
      hs := by simp
      hmode := by simp
      hnv := by simp [hnv]
      crcCtx := rfl
      err := rfl }

theorem feeds_hex {pairs : List (Half × Half)} {bytes : List Byte}
    (h : List.Forall₂ (fun p x => hexval p.1 = some (x.extractLsb' 4 4) ∧ hexval p.2 = some (x.extractLsb' 0 4)) pairs bytes) :
    Feeds .hex (pairs.flatMap fun p => [p.1, p.2]) bytes := by
  induction h with
  | nil => exact .nil .hex
  | cons hpair _ ih => exact (feeds_hex_pair hpair.1 hpair.2).append ih

/-- Settles O56: the pairs feed the HEX session the bytes that the RAW session is fed. -/
theorem hexSessionEqualsRawSession : Obligations.HexSessionEqualsRawSession := by
  unfold Obligations.HexSessionEqualsRawSession
  intro pairs bytes s s' hpairs hs hm hnv hs' hm' hh hsum hbuf hcnt room
  obtain ⟨t, t', ht, ht', agrees, hst, hst'⟩ :=
    (feeds_hex hpairs).agree (feeds_raw bytes) ⟨hs, hm, fun _ => hnv, room⟩ ⟨hs', hm', by simp, hcnt ▸ room⟩
      ⟨hh, hsum, hbuf, hcnt⟩
  exact ⟨t, t', ht, ht', agrees.h, agrees.sum, agrees.buf, agrees.cnt, hst.hs.trans hs, hst.hnv.trans hnv, hst'.hs.trans hs'⟩

/-- Settles O57: the code units feed the TEXT session the bytes of their expansions. -/
theorem textSessionEqualsRawExpansion : Obligations.TextSessionEqualsRawExpansion := by
  unfold Obligations.TextSessionEqualsRawExpansion
  intro units s s' hunits hs hm hs' hm' hh hsum hbuf hcnt room
  obtain ⟨t, t', ht, ht', agrees, hst, hst'⟩ :=
    (feeds_text hunits).agree (feeds_raw _) ⟨hs, hm, by simp, room⟩ ⟨hs', hm', by simp, hcnt ▸ room⟩ ⟨hh, hsum, hbuf, hcnt⟩
  exact ⟨t, t', ht, ht', agrees.h, agrees.sum, agrees.buf, agrees.cnt, hst.hs.trans hs, hst'.hs.trans hs'⟩

end Sys2Proof.Machine
end

section
/-! PROOFS. The hash of a whole message (43_hash_stream.md rules R139, R146, R149): after any number of bytes the context is a function
of the message so far, and finishing it gives the digest of the message cut into blocks at once. -/

namespace Sys2Proof.Machine

/-! ## The blocks of a message that grows -/

/-- The 32 bytes of block `i` of a message, zero beyond its end. -/
def messageBuf (bytes : List Byte) (i : Nat) : Vector Byte 32 := Vector.ofFn fun j => bytes.getD (32 * i + j.val) 0

theorem blockOfBuf_messageBuf (bytes : List Byte) (i : Nat) : blockOfBuf (messageBuf bytes i) = messageBlock bytes i := rfl

theorem messageBuf_getElem (bytes : List Byte) (i j : Nat) (hj : j < 32) :
    (messageBuf bytes i)[j] = bytes.getD (32 * i + j) 0 := by
  simp [messageBuf]

/-- Beyond the end of the message there is nothing but zeros. -/
theorem messageBuf_of_length_le {bytes : List Byte} {i : Nat} (h : bytes.length ≤ 32 * i) :
    messageBuf bytes i = Vector.replicate 32 0 := by
  apply Vector.ext
  intro j hj
  rw [messageBuf_getElem, Vector.getElem_replicate, List.getD_eq_default _ _ (by omega)]

/-- A full block keeps its bytes when the message grows. -/
theorem messageBlock_append_of_full {bytes : List Byte} {i : Nat} (h : 32 * i + 32 ≤ bytes.length) (xs : List Byte) :
    messageBlock (bytes ++ xs) i = messageBlock bytes i := by
  have hbuf : messageBuf (bytes ++ xs) i = messageBuf bytes i := by
    apply Vector.ext
    intro j hj
    rw [messageBuf_getElem, messageBuf_getElem, List.getD_append _ _ _ _ (by omega)]
  exact congrArg blockOfBuf hbuf

theorem hashAndSum_append_of_full {bytes : List Byte} {n : Nat} (h : 32 * n ≤ bytes.length) (xs : List Byte) :
    hashAndSum (bytes ++ xs) n = hashAndSum bytes n := by
  induction n with
  | zero => rw [hashAndSum_zero, hashAndSum_zero]
  | succ n ih => rw [hashAndSum_succ, hashAndSum_succ, ih (by omega), messageBlock_append_of_full (by omega)]

/-- One byte more goes to the first free place of the last block. -/
theorem messageBuf_append_byte (bytes : List Byte) (x : Byte) :
    messageBuf (bytes ++ [x]) (bytes.length / 32) =
      (messageBuf bytes (bytes.length / 32)).set (bytes.length % 32) x (Nat.mod_lt _ (by decide)) := by
  have hend := Nat.div_add_mod bytes.length 32
  apply Vector.ext
  intro j hj
  rw [Vector.getElem_set, messageBuf_getElem, messageBuf_getElem]
  obtain hlt | rfl | hgt := Nat.lt_trichotomy (bytes.length % 32) j
  · rw [if_neg hlt.ne, List.getD_eq_default _ _ (by simp; omega), List.getD_eq_default _ _ (by omega)]
  · rw [if_pos rfl, hend, List.getD_append_right _ _ _ _ (le_refl _), Nat.sub_self]
    rfl
  · rw [if_neg hgt.ne', List.getD_append _ _ _ _ (by omega)]

/-! ## The context after a message -/

/-- The context has taken in exactly the message: its full blocks are in H and SUM, the rest is in BUF. -/
structure HashCtx.Holds (c : HashCtx) (bytes : List Byte) : Prop where
  h : c.h = (hashAndSum bytes (bytes.length / 32)).1
  sum : c.sum = (hashAndSum bytes (bytes.length / 32)).2
  buf : c.buf = messageBuf bytes (bytes.length / 32)
  cnt : c.cnt = BitVec.ofNat 61 bytes.length

theorem HashCtx.Holds.of_agrees {c d : HashCtx} {bytes : List Byte} (h : d.Holds bytes) (hcd : c.Agrees d) : c.Holds bytes :=
  ⟨hcd.h.trans h.h, hcd.sum.trans h.sum, hcd.buf.trans h.buf, hcd.cnt.trans h.cnt⟩

theorem HashCtx.opened_holds_nil (mode : HashMode) : (HashCtx.opened mode).Holds [] :=
  ⟨rfl, rfl, (messageBuf_of_length_le (le_refl 0)).symm, rfl⟩

/-- CNT is taken modulo `2^61`, a multiple of the block length. -/
theorem HashCtx.Holds.cnt_mod_32 {c : HashCtx} {bytes : List Byte} (h : c.Holds bytes) :
    c.cnt.toNat % 32 = bytes.length % 32 := by
  rw [h.cnt, BitVec.toNat_ofNat]
  omega

theorem HashCtx.Holds.pushByte_buf {c : HashCtx} {bytes : List Byte} (h : c.Holds bytes) (x : Byte) :
    (c.pushByte x).buf = messageBuf (bytes ++ [x]) (bytes.length / 32) := by
  rw [messageBuf_append_byte, HashCtx.pushByte_buf]
  simp only [h.buf, h.cnt_mod_32]

theorem HashCtx.Holds.absorb {c : HashCtx} {bytes : List Byte} (h : c.Holds bytes) (x : Byte) :
    (absorb c x).Holds (bytes ++ [x]) := by
  have hmod := h.cnt_mod_32
  have hbuf := h.pushByte_buf x
  have hfull := hashAndSum_append_of_full (Nat.mul_div_le bytes.length 32) [x]
  have hlen : (bytes ++ [x]).length = bytes.length + 1 := List.length_append
  have hcnt : (Machine.absorb c x).cnt = BitVec.ofNat 61 (bytes ++ [x]).length := by
    rw [absorb_cnt, h.cnt, hlen, BitVec.ofNat_add]
    rfl
  obtain ⟨hne, e⟩ | ⟨hlast, e⟩ := absorb_cases c x
  · have hdiv : (bytes ++ [x]).length / 32 = bytes.length / 32 := by omega
    refine ⟨?_, ?_, ?_, hcnt⟩ <;> rw [hdiv, e]
    · rw [hfull, HashCtx.pushByte_h, h.h]
    · rw [hfull, HashCtx.pushByte_sum, h.sum]
    · exact hbuf
  · have hdiv : (bytes ++ [x]).length / 32 = bytes.length / 32 + 1 := by omega
    refine ⟨?_, ?_, ?_, hcnt⟩ <;> rw [hdiv, e]
    · rw [hashAndSum_succ, hfull, ← h.h, ← blockOfBuf_messageBuf, ← hbuf]
      rfl
    · rw [hashAndSum_succ, hfull, ← h.sum, ← blockOfBuf_messageBuf, ← hbuf]
      rfl
    · exact (messageBuf_of_length_le (by omega)).symm

theorem HashCtx.Holds.absorbAll {c : HashCtx} {bytes : List Byte} (h : c.Holds bytes) (bs : List Byte) :
    (absorbAll c bs).Holds (bytes ++ bs) := by
  induction bs generalizing c bytes with
  | nil => simpa using h
  | cons x bs ih => simpa using ih (h.absorb x)

/-! ## Finishing -/

/-- With the partial block, if there is one, all blocks of the message are in H and SUM. -/
theorem HashCtx.Holds.processPartial {c : HashCtx} {bytes : List Byte} (h : c.Holds bytes) :
    c.processPartial.h = (hashAndSum bytes ((bytes.length + 31) / 32)).1 ∧
      c.processPartial.sum = (hashAndSum bytes ((bytes.length + 31) / 32)).2 := by
  have hmod := h.cnt_mod_32
  by_cases hz : c.cnt.toNat % 32 = 0
  · have hblocks : (bytes.length + 31) / 32 = bytes.length / 32 := by omega
    rw [processPartial_of_whole hz, hblocks]
    exact ⟨h.h, h.sum⟩
  · have hblocks : (bytes.length + 31) / 32 = bytes.length / 32 + 1 := by omega
    rw [processPartial_of_partial hz, hblocks, hashAndSum_succ, h.buf, blockOfBuf_messageBuf, ← h.h, ← h.sum]
    exact ⟨rfl, rfl⟩

theorem HashCtx.Holds.finished_h {c : HashCtx} {bytes : List Byte} (h : c.Holds bytes) : c.finished.h = messageDigest bytes := by
  obtain ⟨hh, hsum⟩ := h.processPartial
  rw [Machine.finished_h, hh, hsum, processPartial_cnt, h.cnt]
  rfl

/-- Settles O59: the opened context holds the empty message, the H_PUTs make it hold `bytes`, and H_FINAL finishes it. -/
theorem streamingHashEqualsWholeMessageHash : Obligations.StreamingHashEqualsWholeMessageHash := by
  unfold Obligations.StreamingHashEqualsWholeMessageHash
  intro bytes s hlen
  obtain ⟨u, hu, huctx, hucrc, huerr, -⟩ := hashInit_opens .raw s
  have hready : u.hashCtx.Ready .raw bytes.length := by
    rw [huctx]
    exact ⟨rfl, rfl, by simp, by simpa using hlen⟩
  obtain ⟨v, hv, huv⟩ := feeds_raw bytes u hready
  have hholds : v.hashCtx.Holds bytes := ((huctx ▸ HashCtx.opened_holds_nil .raw).absorbAll bytes).of_agrees huv.agrees
  have hdigest : v.hashCtx.finished.h = messageDigest bytes := hholds.finished_h
  have hfinal := execHFinal_of_paired (huv.hs.trans hready.hs) (by simp [huv.hmode, hready.hmode])
  refine ⟨respond (v.withHash v.hashCtx.finished) .ok 0, ?run, hdigest, ?text, rfl, ?count, huv.crcCtx.trans hucrc,
    huv.err.trans huerr⟩
  case run =>
    rw [hashRawSeq, List.cons_append, runInstrs_cons (show exec .hInitRaw s = .next u from hu), runInstrs_append hv]
    exact runInstrs_cons hfinal
  case text => exact (finished_hout v.hashCtx).trans (congrArg renderDigest hdigest)
  case count =>
    rw [respond_hashCtx, State.withHash_hashCtx, finished_cnt, hholds.cnt, BitVec.toNat_ofNat]
    omega

end Sys2Proof.Machine
end

section
/-! PROOFS. The CRC table and the CRC text (44_crc32.md rules R160, R161, R165, R166). A step of the table is linear over exclusive or,
and so are eight of them. The number of significant digits is the least that holds the value, so the digits above them are 0. -/

namespace Sys2Proof.Machine

/-! ## The table (R160) -/

/-- What a step of the table brings in for the bit it shifts out: the polynomial for a 1, nothing for a 0. -/
def crcFeedback (out : Bool) : Word := if out then 0xEDB88320 else 0

theorem crcTableStep_eq (c : Word) : crcTableStep c = crcFeedback (c.getLsbD 0) ^^^ c >>> 1 := by
  rw [crcTableStep, crcFeedback]
  split
  · rfl
  · exact BitVec.zero_xor.symm

theorem crcFeedback_xor (a b : Bool) : crcFeedback (a ^^ b) = crcFeedback a ^^^ crcFeedback b := by
  revert a b; decide

theorem crcTableStep_xor (a b : Word) : crcTableStep (a ^^^ b) = crcTableStep a ^^^ crcTableStep b := by
  simp only [crcTableStep_eq, BitVec.getLsbD_xor, crcFeedback_xor, BitVec.ushiftRight_xor_distrib]
  ac_rfl

theorem crcTable_xor (a b : Byte) : crcTable (a ^^^ b) = crcTable a ^^^ crcTable b := by
  have hsteps : Function.Semiconj₂ crcTableStep^[8] (· ^^^ ·) (· ^^^ ·) := Function.Semiconj₂.iterate crcTableStep_xor 8
  rw [crcTable, BitVec.setWidth_xor]
  exact hsteps (a.setWidth 32) (b.setWidth 32)

/-- Settles O51: additivity by `crcTable_xor`, and six entries of the table. -/
theorem crcTableIsAdditive : Obligations.CrcTableIsAdditive := by
  unfold Obligations.CrcTableIsAdditive
  exact ⟨crcTable_xor, by decide⟩

/-! ## The accumulator (R161) -/

/-- A byte is the low byte of any wider value it is extended to. -/
theorem extractLsb'_setWidth_byte (x : Byte) {w : Nat} (hw : 8 ≤ w) : (x.setWidth w).extractLsb' 0 8 = x :=
  (BitVec.extractLsb'_setWidth_of_le (by omega)).trans BitVec.extractLsb'_eq_self

/-- The table index is the low byte of CRC, exclusive or the byte taken in. -/
theorem crcstep_eq (crc : Word) (x : Byte) : crcstep crc x = crc >>> 8 ^^^ crcTable (byteOf crc 0 ^^^ x) := by
  rw [crcstep, byteOf, byteOf, BitVec.extractLsb'_xor, extractLsb'_setWidth_byte x (by decide)]

/-- The operand may enter whole: only its low byte meets the low byte of CRC. -/
theorem crcstep_lowByte (crc : Word) (arg : Half) :
    crcstep crc (arg.extractLsb' 0 8) = crc >>> 8 ^^^ crcTable ((crc ^^^ arg.setWidth 32).extractLsb' 0 8) := by
  rw [crcstep_eq, byteOf, BitVec.extractLsb'_xor, BitVec.extractLsb'_setWidth_of_le (by decide)]

/-! ## The significant digits (R165) -/

/-- The digits of a value are the least number of them, at least 1, that holds it; 8 hold every word. -/
theorem significantDigits_spec (v : Word) :
    1 ≤ significantDigits v ∧ v.toNat < 16 ^ significantDigits v ∧
      ∀ m, 1 ≤ m → m < significantDigits v → 16 ^ m ≤ v.toNat := by
  cases hfind : (List.range' 1 8).find? fun n => v.toNat < 16 ^ n with
  | none =>
    have hnone := List.find?_eq_none.mp hfind 8 (by decide)
    exact absurd v.isLt (by simpa using hnone)
  | some n =>
    have hn : significantDigits v = n := by rw [significantDigits, hfind, Option.getD_some]
    obtain ⟨hlt, hmem, hleast⟩ := List.find?_range'_eq_some.mp hfind
    rw [List.mem_range'_1] at hmem
    rw [hn]
    exact ⟨hmem.1, by simpa using hlt, fun m h1 hm => by simpa using hleast m h1 hm⟩

/-- Above the digits that hold a value there are only zeros. -/
theorem hexDigitOf_eq_zero {v : Word} {n k : Nat} (hv : v.toNat < 16 ^ n) (hk : n ≤ k) : hexDigitOf v k = 0 := by
  have hlt : v.toNat < 2 ^ (4 * k) :=
    calc v.toNat < 16 ^ n := hv
      _ ≤ 16 ^ k := Nat.pow_le_pow_right (by decide) hk
      _ = 2 ^ (4 * k) := by rw [Nat.pow_mul]
  apply BitVec.eq_of_toNat_eq
  rw [hexDigitOf, BitVec.extractLsb'_toNat, Nat.shiftRight_eq_div_pow, Nat.div_eq_of_lt hlt]
  rfl

/-! ## The renderings (R165, R166) -/

theorem renderVar_cout_getElem (v : Word) (j : Nat) (hj : j < 8) :
    (renderVar v).cout[j] =
      if j < significantDigits v then hexchar (hexDigitOf v (significantDigits v - 1 - j)) else 0 := by
  simp [renderVar]

theorem renderPad8_cout_getElem (v : Word) (j : Nat) (hj : j < 8) :
    (renderPad8 v).cout[j] = hexchar (hexDigitOf v (7 - j)) := by
  simp [renderPad8]

/-- Settles O52: the number of digits by `significantDigits_spec`, the characters one by one. -/
theorem renderVarIsUnpadded : Obligations.RenderVarIsUnpadded := by
  unfold Obligations.RenderVarIsUnpadded
  intro v
  obtain ⟨hpos, hlt, hleast⟩ := significantDigits_spec v
  exact ⟨significantDigits v, hpos, significantDigits_le v, hlt, hleast, renderVar_coutlen_toNat v,
    fun j => renderVar_cout_getElem v j.val j.isLt⟩

/-- R168(b): the places in front of the significant digits are zeros, the others are the unpadded text moved up. -/
theorem renderPad8_cout_toList (v : Word) :
    (renderPad8 v).cout.toList =
      List.replicate (8 - significantDigits v) 0x30 ++ (renderVar v).cout.toList.take (significantDigits v) := by
  have hle := significantDigits_le v
  obtain ⟨-, hlt, -⟩ := significantDigits_spec v
  apply List.ext_getElem
  · simp only [Vector.length_toList, List.length_append, List.length_replicate, List.length_take]
    omega
  · intro i hi _
    rw [Vector.length_toList] at hi
    rw [Vector.getElem_toList, renderPad8_cout_getElem v i hi]
    by_cases hfront : i < 8 - significantDigits v
    · rw [List.getElem_append_left (by simpa using hfront), List.getElem_replicate,
        hexDigitOf_eq_zero hlt (by omega)]
      rfl
    · rw [List.getElem_append_right (by simpa using hfront)]
      simp only [List.length_replicate, List.getElem_take, Vector.getElem_toList]
      rw [renderVar_cout_getElem v _ (by omega), if_pos (by omega)]
      congr 2
      omega

/-- Settles O53, by `renderPad8_cout_toList`. -/
theorem renderPad8IsPaddedRenderVar : Obligations.RenderPad8IsPaddedRenderVar := by
  unfold Obligations.RenderPad8IsPaddedRenderVar
  intro v
  refine ⟨rfl, fun j => renderPad8_cout_getElem v j.val j.isLt, ?_⟩
  rw [renderVar_coutlen_toNat]
  exact renderPad8_cout_toList v

end Sys2Proof.Machine
end

section
/-! PROOFS. The CRC commands (44_crc32.md rules R162, R163, R164): the operand by mode; C_INIT; C_PUT, mode by mode; C_FINAL. -/

namespace Sys2Proof.Machine

/-! ## The operand by mode (R87, R163) -/

section crcDatum
variable {c : CrcCtx} {arg : Half}

theorem crcDatum_text_of_le (hm : c.cmode = .text) (h : arg.toNat ≤ 0xFF) : crcDatum c arg = .bytes [arg.extractLsb' 0 8] := by
  have hle : ¬ arg > 0x00FF := by simpa [BitVec.lt_def] using h
  rw [crcDatum, hm]
  exact if_neg hle

theorem crcDatum_text_of_gt (hm : c.cmode = .text) (h : arg.toNat > 0xFF) : crcDatum c arg = .bad .eRange := by
  have hgt : arg > 0x00FF := by simpa [BitVec.lt_def] using h
  rw [crcDatum, hm]
  exact if_pos hgt

theorem crcDatum_hex_of_none (hm : c.cmode = .hex) (h : hexval arg = none) : crcDatum c arg = .bad .eHex := by
  simp [crcDatum, hm, hexDatum, h]

theorem crcDatum_hex_first {d : Nibble} (hm : c.cmode = .hex) (hnv : c.cnv = false) (h : hexval arg = some d) :
    crcDatum c arg = .firstDigit d := by
  simp [crcDatum, hm, hexDatum, h, hnv]

theorem crcDatum_hex_second {d : Nibble} (hm : c.cmode = .hex) (hnv : c.cnv = true) (h : hexval arg = some d) :
    crcDatum c arg = .bytes [pairByte c.cnib d] := by
  simp [crcDatum, hm, hexDatum, h, hnv]

end crcDatum

/-! ## C_INIT -/

theorem crcInit_opens (mode : CrcMode) (s : State) :
    ∃ t, crcInit mode s = .next t ∧ t.crcCtx = CrcCtx.opened mode ∧ t.hashCtx = s.hashCtx ∧ t.err = s.err ∧
      Answers s t .ok 0 :=
  ⟨_, rfl, rfl, rfl, rfl, rfl⟩

/-- Settles O21: each of the two commands is `crcInit` of its mode, and the context it opens is zero but for CRC, CMODE and CS. -/
theorem cInitOpensSession : Obligations.CInitOpensSession := by
  unfold Obligations.CInitOpensSession
  intro i mode hrow s
  have hexec : exec i s = crcInit mode s := by
    obtain ⟨rfl, rfl⟩ | ⟨rfl, rfl⟩ := hrow <;> rfl
  obtain ⟨t, ht, hctx, hhash, herr, hans⟩ := crcInit_opens mode s
  refine ⟨t, hexec.trans ht, ?_⟩
  rw [hctx]
  exact ⟨rfl, rfl, rfl, replicate_zero_getElem, rfl, rfl, rfl, hhash, herr, hans⟩

/-! ## C_PUT that succeeds, by mode -/

theorem CrcCtx.latchUsed_of_hex {c : CrcCtx} (hm : c.cmode = .hex) : c.latchUsed = c.withLatch false 0 := if_pos hm

theorem CrcCtx.latchUsed_of_ne_hex {c : CrcCtx} (hm : c.cmode ≠ .hex) : c.latchUsed = c := if_neg hm

section success
variable {s : State} {arg : Half}

theorem execCPut_text (hs : s.crcCtx.cs = .active) (hm : s.crcCtx.cmode = .text) (harg : arg.toNat ≤ 0xFF) :
    execCPut arg s = .next (respond (s.withCrc (s.crcCtx.accumulate [arg.extractLsb' 0 8])) .ok 0) := by
  rw [execCPut_of_bytes hs (crcDatum_text_of_le hm harg), CrcCtx.latchUsed_of_ne_hex (by simp [hm])]

theorem execCPut_hex_first {d : Nibble} (hs : s.crcCtx.cs = .active) (hm : s.crcCtx.cmode = .hex)
    (hnv : s.crcCtx.cnv = false) (hd : hexval arg = some d) :
    execCPut arg s = .next (respond (s.withCrc (s.crcCtx.withLatch true d)) .ok 0) :=
  execCPut_of_firstDigit hs (crcDatum_hex_first hm hnv hd)

theorem execCPut_hex_second {d : Nibble} (hs : s.crcCtx.cs = .active) (hm : s.crcCtx.cmode = .hex)
    (hnv : s.crcCtx.cnv = true) (hd : hexval arg = some d) :
    execCPut arg s =
      .next (respond (s.withCrc ((s.crcCtx.withLatch false 0).accumulate [pairByte s.crcCtx.cnib d])) .ok 0) := by
  rw [execCPut_of_bytes hs (crcDatum_hex_second hm hnv hd), CrcCtx.latchUsed_of_hex hm]

end success

/-- Settles O22, by `execCPut_text`; the byte's step is written out by `crcstep_lowByte`. -/
theorem cPutTextAccumulatesByte : Obligations.CPutTextAccumulatesByte := by
  unfold Obligations.CPutTextAccumulatesByte
  intro s arg hs hm harg
  refine ⟨_, execCPut_text hs hm harg, ?_, rfl, rfl, rfl⟩
  rw [← crcstep_lowByte]
  rfl

/-- Settles O23, by `execCPut_hex_first`. -/
theorem cPutHexLatchesFirstDigit : Obligations.CPutHexLatchesFirstDigit := by
  unfold Obligations.CPutHexLatchesFirstDigit
  exact fun s arg d hs hm hnv hd => ⟨_, execCPut_hex_first hs hm hnv hd, rfl, rfl, rfl, rfl⟩

/-- Settles O24, by `execCPut_hex_second` and the number of a pair. -/
theorem cPutHexAccumulatesPair : Obligations.CPutHexAccumulatesPair := by
  unfold Obligations.CPutHexAccumulatesPair
  exact fun s arg d hs hm hnv hd =>
    ⟨_, pairByte s.crcCtx.cnib d, execCPut_hex_second hs hm hnv hd, pairByte_toNat _ _, rfl, rfl, rfl, rfl⟩

/-- Settles O25: in each case the operand is bad, and the command ends with `sessionFailCrc`. -/
theorem cPutOperandErrorFailsSession : Obligations.CPutOperandErrorFailsSession := by
  unfold Obligations.CPutOperandErrorFailsSession
  intro s arg code hs hcase
  have hbad : crcDatum s.crcCtx arg = .bad code := by
    obtain ⟨hm, harg, rfl⟩ | ⟨hm, harg, rfl⟩ := hcase
    · exact crcDatum_text_of_gt hm harg
    · exact crcDatum_hex_of_none hm harg
  exact ⟨_, execCPut_of_bad hs hbad, rfl, rfl, rfl, rfl⟩

/-! ## C_FINAL (R164) -/

theorem CrcCtx.finished_crc (c : CrcCtx) : c.finished.crc = ~~~ c.crc := BitVec.xor_allOnes

theorem CrcCtx.finished_text_of_text {c : CrcCtx} (hm : c.cmode = .text) :
    c.finished.cout = (renderVar c.finished.crc).cout ∧ c.finished.coutlen = (renderVar c.finished.crc).coutlen := by
  rw [CrcCtx.finished_cout, CrcCtx.finished_coutlen, hm]
  exact ⟨rfl, rfl⟩

theorem CrcCtx.finished_text_of_hex {c : CrcCtx} (hm : c.cmode = .hex) :
    c.finished.cout = (renderPad8 c.finished.crc).cout ∧ c.finished.coutlen = (renderPad8 c.finished.crc).coutlen := by
  rw [CrcCtx.finished_cout, CrcCtx.finished_coutlen, hm]
  exact ⟨rfl, rfl⟩

/-- Settles O26, by `execCFinal_of_paired` and the fields of the finished context. -/
theorem cFinalProducesChecksum : Obligations.CFinalProducesChecksum := by
  unfold Obligations.CFinalProducesChecksum
  exact fun s hs paired =>
    ⟨_, execCFinal_of_paired hs paired, s.crcCtx.finished_crc, CrcCtx.finished_text_of_text, CrcCtx.finished_text_of_hex,
      rfl, rfl, rfl, rfl, rfl, rfl, rfl⟩

end Sys2Proof.Machine
end

section
/-! PROOFS. Runs of C_PUT commands (44_crc32.md rule R168; 30_encoding.md rule R92): in either mode a list of operands has the session
accumulate the bytes it stands for, and a whole sequence leaves the finished context of those bytes, whatever state it began in. -/

namespace Sys2Proof.Machine

/-! ## Operands that stand for bytes -/

/-- An ACTIVE session of the mode with the latch clear. -/
structure CrcCtx.Ready (mode : CrcMode) (c : CrcCtx) : Prop where
  cs : c.cs = .active
  cmode : c.cmode = mode
  cnv : c.cnv = false
  cnib : c.cnib = 0

theorem CrcCtx.opened_ready (mode : CrcMode) : (CrcCtx.opened mode).Ready mode := ⟨rfl, rfl, rfl, rfl⟩

theorem CrcCtx.Ready.accumulate {mode : CrcMode} {c : CrcCtx} (h : c.Ready mode) (bs : List Byte) :
    (c.accumulate bs).Ready mode := ⟨h.cs, h.cmode, h.cnv, h.cnib⟩

theorem CrcCtx.Ready.withLatch_clear {mode : CrcMode} {c : CrcCtx} (h : c.Ready mode) : c.withLatch false 0 = c := by
  rw [← h.cnv, ← h.cnib]
  rfl

theorem CrcCtx.accumulate_append (c : CrcCtx) (xs ys : List Byte) :
    c.accumulate (xs ++ ys) = (c.accumulate xs).accumulate ys := by
  simp only [CrcCtx.accumulate, List.foldl_append]

/-- In a session of the mode that is ready for them, C_PUTs of the operands complete and accumulate the bytes; nothing else of the CRC
context changes. -/
def CrcFeeds (mode : CrcMode) (args : List Half) (bs : List Byte) : Prop :=
  ∀ s : State, s.crcCtx.Ready mode → ∃ t, runInstrs (crcPuts args) s = .next t ∧ t.crcCtx = s.crcCtx.accumulate bs

theorem CrcFeeds.nil (mode : CrcMode) : CrcFeeds mode [] [] := fun s _ => ⟨s, rfl, rfl⟩

theorem crcPuts_append (as bs : List Half) : crcPuts (as ++ bs) = crcPuts as ++ crcPuts bs := List.map_append

theorem CrcFeeds.append {mode : CrcMode} {as bs : List Half} {xs ys : List Byte} (ha : CrcFeeds mode as xs)
    (hb : CrcFeeds mode bs ys) : CrcFeeds mode (as ++ bs) (xs ++ ys) := by
  intro s hready
  obtain ⟨t, ht, hst⟩ := ha s hready
  obtain ⟨u, hu, htu⟩ := hb t (hst ▸ hready.accumulate xs)
  refine ⟨u, ?_, ?_⟩
  · rw [crcPuts_append, runInstrs_append ht, hu]
  · rw [htu, hst, CrcCtx.accumulate_append]

theorem runInstrs_cPut {arg : Half} {s t : State} (h : execCPut arg s = .next t) (args : List Half) :
    runInstrs (crcPuts (arg :: args)) s = runInstrs (crcPuts args) t := runInstrs_cons h

theorem crcFeeds_text_byte (x : Byte) : CrcFeeds .text [x.setWidth 16] [x] := by
  intro s hready
  have hle : (x.setWidth 16).toNat ≤ 0xFF := by
    rw [BitVec.toNat_setWidth]
    omega
  refine ⟨_, runInstrs_cPut (execCPut_text hready.cs hready.cmode hle) [], ?_⟩
  rw [extractLsb'_setWidth_byte x (by decide)]
  rfl

theorem crcFeeds_text (bytes : List Byte) : CrcFeeds .text (bytes.map fun x => x.setWidth 16) bytes := by
  induction bytes with
  | nil => exact .nil .text
  | cons x bytes ih => exact (crcFeeds_text_byte x).append ih

/-- Two digits: the first goes into the latch, the second completes the byte and leaves the latch clear, as it was. -/
theorem crcFeeds_hex_pair {a b : Half} {x : Byte} (ha : hexval a = some (x.extractLsb' 4 4))
    (hb : hexval b = some (x.extractLsb' 0 4)) : CrcFeeds .hex [a, b] [x] := by
  intro s hready
  have hfirst := execCPut_hex_first hready.cs hready.cmode hready.cnv ha
  have hsecond := execCPut_hex_second (s := respond (s.withCrc (s.crcCtx.withLatch true (x.extractLsb' 4 4))) .ok 0)
    hready.cs hready.cmode rfl hb
  refine ⟨_, (runInstrs_cPut hfirst [b]).trans (runInstrs_cPut hsecond []), ?_⟩
  calc (s.crcCtx.withLatch false 0).accumulate [pairByte (x.extractLsb' 4 4) (x.extractLsb' 0 4)]
      = s.crcCtx.accumulate [x] := by rw [hready.withLatch_clear, pairByte_nibbles]

theorem toHex_cons (x : Byte) (bytes : List Byte) :
    toHex (x :: bytes) =
      [(hexchar (x.extractLsb' 4 4)).setWidth 16, (hexchar (x.extractLsb' 0 4)).setWidth 16] ++ toHex bytes :=
  List.flatMap_cons

theorem crcFeeds_toHex (bytes : List Byte) : CrcFeeds .hex (toHex bytes) bytes := by
  induction bytes with
  | nil => exact .nil .hex
  | cons x bytes ih =>
    rw [toHex_cons]
    exact (crcFeeds_hex_pair (hexval_hexchar _) (hexval_hexchar _)).append ih

/-! ## Whole sequences -/

/-- C_INIT, the C_PUTs and C_FINAL, from any state: the context is the finished one of the bytes, and C_FINAL answers its CRC. -/
theorem CrcFeeds.run {mode : CrcMode} {args : List Half} {bytes : List Byte} (hf : CrcFeeds mode args bytes) {init : Instr}
    {s : State} (hinit : exec init s = crcInit mode s) :
    ∃ t, runInstrs (init :: crcPuts args ++ [.cFinal]) s = .next t ∧
      t.crcCtx = ((CrcCtx.opened mode).accumulate bytes).finished ∧
      t.responses.getLast? = some { code := .ok, data := t.crcCtx.crc } := by
  obtain ⟨u, hu, huctx, -⟩ := crcInit_opens mode s
  obtain ⟨v, hv, hvctx⟩ := hf u (huctx ▸ CrcCtx.opened_ready mode)
  rw [huctx] at hvctx
  have hready : v.crcCtx.Ready mode := hvctx ▸ (CrcCtx.opened_ready mode).accumulate bytes
  have hfinal := execCFinal_of_paired hready.cs (by simp [hready.cnv])
  refine ⟨respond (v.withCrc v.crcCtx.finished) .ok v.crcCtx.finished.crc, ?run, ?ctx, ?answer⟩
  case run =>
    rw [List.cons_append, runInstrs_cons (hinit.trans hu), runInstrs_append hv]
    exact runInstrs_cons hfinal
  case ctx => exact congrArg CrcCtx.finished hvctx
  case answer => exact List.getLast?_concat

/-- The CRC of a whole message does not depend on the mode that it came in by. -/
theorem finished_crc_of_accumulated (mode : CrcMode) (bytes : List Byte) :
    ((CrcCtx.opened mode).accumulate bytes).finished.crc = ~~~ bytes.foldl crcstep 0xFFFFFFFF :=
  CrcCtx.finished_crc _

/-- Settles O58: both sequences accumulate `bytes` in an opened session, and each mode renders the same CRC in its own format. -/
theorem crcOfHexTextEqualsCrcOfBytes : Obligations.CrcOfHexTextEqualsCrcOfBytes := by
  unfold Obligations.CrcOfHexTextEqualsCrcOfBytes
  intro bytes s s'
  obtain ⟨t, ht, hctx, hans⟩ := (crcFeeds_toHex bytes).run (init := .cInitHex) (s := s) rfl
  obtain ⟨t', ht', hctx', hans'⟩ := (crcFeeds_text bytes).run (init := .cInitText) (s := s') rfl
  have hcrc : t.crcCtx.crc = ~~~ bytes.foldl crcstep 0xFFFFFFFF := by rw [hctx, finished_crc_of_accumulated]
  have hcrc' : t'.crcCtx.crc = ~~~ bytes.foldl crcstep 0xFFFFFFFF := by rw [hctx', finished_crc_of_accumulated]
  obtain ⟨hpad, hpadlen⟩ := CrcCtx.finished_text_of_hex (c := (CrcCtx.opened .hex).accumulate bytes) rfl
  obtain ⟨hvar, hvarlen⟩ := CrcCtx.finished_text_of_text (c := (CrcCtx.opened .text).accumulate bytes) rfl
  rw [← hctx] at hpad hpadlen
  rw [← hctx'] at hvar hvarlen
  exact ⟨t, t', ht, ht', hcrc, hcrc'.trans hcrc.symm, hpad, hpadlen, hvar, hvarlen, hans, hans'⟩

end Sys2Proof.Machine
end

section
/-! PROOFS. RD (45_register_read.md rule R175; 60_exceptions.md rules R182, R189): what it answers, by whether an entry stands at the index. -/

namespace Sys2Proof.Machine

section rd
variable {index : Half} {s : State}

theorem execRd_of_entry {v : Word} (hv : memRead s index = some v) : execRd index s = .next (respond s .ok v) := by
  simp [execRd, hv]

theorem execRd_of_no_entry (hv : memRead s index = none) : execRd index s = .next (raise s .eAddr) := by
  simp [execRd, hv]

/-- Whether an index is unmapped does not depend on the state: the ranges of R45 are where a read finds no entry. -/
theorem isUnmappedIndex_iff_memRead : IsUnmappedIndex index ↔ memRead s index = none :=
  (isUnmappedIndex_iff index).trans memRead_eq_none.symm
end rd

/-- Settles O28: a mapped index has an entry, and RD responds with its value; an unmapped one has none, and RD raises E_ADDR. -/
theorem rdReadsOrRaisesEAddr : Obligations.RdReadsOrRaisesEAddr := by
  unfold Obligations.RdReadsOrRaisesEAddr
  intro s index
  constructor
  · intro mapped
    obtain ⟨v, hv⟩ := Option.ne_none_iff_exists'.mp (mt isUnmappedIndex_iff_memRead.mpr mapped)
    exact ⟨respond s .ok v, v, execRd_of_entry hv, hv, rfl, rfl, rfl, rfl⟩
  · intro unmapped
    have hv : memRead s index = none := isUnmappedIndex_iff_memRead.mp unmapped
    exact ⟨raise s .eAddr, execRd_of_no_entry hv, raise_hashCtx s .eAddr, raise_crcCtx s .eAddr, raise_err s .eAddr,
      raise_responses s .eAddr⟩

end Sys2Proof.Machine
end

section
/-! PROOFS. Errors and sessions (60_exceptions.md rules R182, R184, R190). R190 is one table for both sessions, so how a PUT or
a FINAL ends is said once, for the session of either group; the transitions and the precision of errors follow by cases on this. -/

namespace Sys2Proof.Machine

/-! ## The two groups and their sessions -/

/-- The two groups of commands that own a session (R83, R190). -/
inductive CommandGroup where
  | hash
  | crc

/-- The session state of a group: HS or CS. -/
def CommandGroup.session : CommandGroup → State → Session
  | .hash, s => s.hashCtx.hs
  | .crc, s => s.crcCtx.cs

@[simp] theorem CommandGroup.session_hash (s : State) : CommandGroup.hash.session s = s.hashCtx.hs := rfl
@[simp] theorem CommandGroup.session_crc (s : State) : CommandGroup.crc.session s = s.crcCtx.cs := rfl

/-- The `session_fail` of a group (R183). -/
def CommandGroup.fail : CommandGroup → State → Code → State
  | .hash => sessionFailHash
  | .crc => sessionFailCrc

section group
variable (g : CommandGroup) (s : State) (code : Code)
@[simp] theorem CommandGroup.session_raise : g.session (raise s code) = g.session s := by cases g <;> rfl
@[simp] theorem CommandGroup.session_fail : g.session (g.fail s code) = .failed := by cases g <;> rfl
theorem CommandGroup.fail_answers : Answers s (g.fail s code) code 0 := by cases g <;> rfl
end group

/-! ## How a PUT or a FINAL ends -/

/-- The states in which a PUT or a FINAL of a group can end: refused, failed, or succeeded, with the session then in `success`
(R184, R190). -/
inductive SessionEnd (g : CommandGroup) (success : Session) (s : State) : State → Prop where
  | refused (hs : g.session s ≠ .active) : SessionEnd g success s (raise s .eState)
  | failed {code : Code} (hs : g.session s = .active) (hok : code ≠ .ok) (hstate : code ≠ .eState) :
      SessionEnd g success s (g.fail s code)
  | succeeded {t : State} {data : Word} (hs : g.session s = .active) (hans : Answers s t .ok data)
      (ht : g.session t = success) : SessionEnd g success s t

theorem hashDatum_bad_ne_eState {c : HashCtx} {arg : Half} {code : Code} (h : hashDatum c arg = .bad code) :
    code ≠ .eState := by
  obtain ⟨-, -, rfl⟩ | ⟨-, -, rfl⟩ | ⟨-, -, rfl⟩ := hashDatum_bad h <;> decide

theorem crcDatum_bad_ne_eState {c : CrcCtx} {arg : Half} {code : Code} (h : crcDatum c arg = .bad code) :
    code ≠ .eState := by
  obtain ⟨-, -, rfl⟩ | ⟨-, -, rfl⟩ := crcDatum_bad h <;> decide

@[simp] theorem HashCtx.latchUsed_hs (c : HashCtx) : c.latchUsed.hs = c.hs := by
  by_cases hm : c.hmode = .hex
  · rw [HashCtx.latchUsed_of_hex hm, HashCtx.withLatch_hs]
  · rw [HashCtx.latchUsed_of_ne_hex hm]

@[simp] theorem CrcCtx.latchUsed_cs (c : CrcCtx) : c.latchUsed.cs = c.cs := by
  by_cases hm : c.cmode = .hex
  · rw [CrcCtx.latchUsed_of_hex hm, CrcCtx.withLatch_cs]
  · rw [CrcCtx.latchUsed_of_ne_hex hm]

theorem execHPut_end {arg : Half} {s t : State} (h : execHPut arg s = .next t) : SessionEnd .hash .active s t := by
  obtain ⟨hs, rfl⟩ | ⟨hs, code, hd, rfl⟩ | ⟨hs, d, -, rfl⟩ | ⟨hs, bs, -, -, rfl⟩ | ⟨hs, bs, -, -, rfl⟩ := execHPut_cases h
  · exact .refused hs
  · exact .failed hs (hashDatum_bad_ne_ok hd) (hashDatum_bad_ne_eState hd)
  · exact .succeeded hs rfl hs
  · exact .failed (code := .eLength) hs (by decide) (by decide)
  · have hkept : (absorbAll s.hashCtx.latchUsed bs).hs = .active := by simpa using hs
    exact .succeeded hs rfl hkept

theorem execHFinal_end {s t : State} (h : execHFinal s = .next t) : SessionEnd .hash .done s t := by
  obtain ⟨hs, rfl⟩ | ⟨hs, -, rfl⟩ | ⟨hs, -, rfl⟩ := execHFinal_cases h
  · exact .refused hs
  · exact .failed (code := .eHex) hs (by decide) (by decide)
  · exact .succeeded hs rfl (finished_hs s.hashCtx)

theorem execCPut_end {arg : Half} {s t : State} (h : execCPut arg s = .next t) : SessionEnd .crc .active s t := by
  obtain ⟨hs, rfl⟩ | ⟨hs, code, hd, rfl⟩ | ⟨hs, d, -, rfl⟩ | ⟨hs, bs, -, rfl⟩ := execCPut_cases h
  · exact .refused hs
  · exact .failed hs (crcDatum_bad_ne_ok hd) (crcDatum_bad_ne_eState hd)
  · exact .succeeded hs rfl hs
  · have hkept : (s.crcCtx.latchUsed.accumulate bs).cs = .active := by simpa using hs
    exact .succeeded hs rfl hkept

theorem execCFinal_end {s t : State} (h : execCFinal s = .next t) : SessionEnd .crc .done s t := by
  obtain ⟨hs, rfl⟩ | ⟨hs, -, rfl⟩ | ⟨hs, -, rfl⟩ := execCFinal_cases h
  · exact .refused hs
  · exact .failed (code := .eHex) hs (by decide) (by decide)
  · exact .succeeded hs rfl (CrcCtx.finished_cs s.crcCtx)

/-! ## E_STATE (R184) -/

/-- The command is a PUT or a FINAL, and its session is not ACTIVE. -/
def SessionMissing (i : Instr) (s : State) : Prop :=
  (((∃ arg, i = .hPut arg) ∨ i = .hFinal) ∧ s.hashCtx.hs ≠ .active) ∨
    (((∃ arg, i = .cPut arg) ∨ i = .cFinal) ∧ s.crcCtx.cs ≠ .active)

theorem SessionMissing.exec_eq {i : Instr} {s : State} (h : SessionMissing i s) : exec i s = .next (raise s .eState) := by
  obtain ⟨⟨arg, rfl⟩ | rfl, hs⟩ | ⟨⟨arg, rfl⟩ | rfl, hs⟩ := h
  · exact execHPut_of_not_active hs
  · exact execHFinal_of_not_active hs
  · exact execCPut_of_not_active hs
  · exact execCFinal_of_not_active hs

/-- Settles O31: each of the four commands raises E_STATE. -/
theorem putAndFinalNeedActiveSession : Obligations.PutAndFinalNeedActiveSession := by
  unfold Obligations.PutAndFinalNeedActiveSession
  intro s i h
  have hmissing : SessionMissing i s := h
  exact ⟨_, hmissing.exec_eq, raise_hashCtx s .eState, raise_crcCtx s .eState, raise_err s .eState, raise_responses s .eState⟩

/-! ## The transitions (R190) -/

/-- The session state after a PUT or a FINAL that answers `code`, where success leaves it in `success`. -/
def sessionAfter (success x : Session) (code : Code) : Session :=
  if x = .active then (if code = .ok then success else .failed) else x

/-- A PUT that succeeds leaves the session as it is, so that only an error moves it. -/
theorem sessionAfter_active (x : Session) (code : Code) :
    sessionAfter .active x code = if x = .active ∧ code ≠ .ok then .failed else x := by
  by_cases hc : code = .ok
  · simpa [sessionAfter, hc] using Eq.symm
  · simp [sessionAfter, hc]

/-- What R190 says of a PUT or a FINAL, for either session. -/
theorem SessionEnd.transition {g : CommandGroup} {success : Session} {s t : State} (h : SessionEnd g success s t) :
    ∃ r, t.responses = s.responses ++ [r] ∧ g.session t = sessionAfter success (g.session s) r.code ∧
      (r.code = .eState ↔ g.session s ≠ .active) := by
  cases h with
  | refused hs => exact ⟨⟨.eState, 0⟩, rfl, by simp [sessionAfter, hs], by simp [hs]⟩
  | @failed code hs hok hstate =>
    exact ⟨⟨code, 0⟩, g.fail_answers s code, by simp [sessionAfter, hs, hok], by simp [hs, hstate]⟩
  | succeeded hs hans ht => exact ⟨_, hans, by simp [sessionAfter, hs, ht], by simp [hs]⟩

theorem exec_hash_keeps_crc {i : Instr} {s t : State} (hi : isHashCommand i = true) (h : exec i s = .next t) :
    t.crcCtx = s.crcCtx :=
  (contextsAreIndependent.1 i s t s.crcCtx hi h).1

theorem exec_crc_keeps_hash {i : Instr} {s t : State} (hi : isCrcCommand i = true) (h : exec i s = .next t) :
    t.hashCtx = s.hashCtx :=
  (contextsAreIndependent.2 i s t s.hashCtx hi h).1

/-- Settles O33: INIT opens its session, a PUT or a FINAL moves its own by `SessionEnd.transition`, and the session of the other
group stands in a context that the command leaves alone. -/
theorem sessionTransitions : Obligations.SessionTransitions := by
  unfold Obligations.SessionTransitions
  intro i s t h
  cases i with
  | hInitRaw | hInitHex | hInitText =>
    obtain rfl := hashInit_next h
    exact ⟨⟨.ok, 0⟩, rfl, rfl, rfl, by simp⟩
  | cInitText | cInitHex =>
    obtain rfl := crcInit_next h
    exact ⟨⟨.ok, 0⟩, rfl, rfl, rfl, by simp⟩
  | hPut arg =>
    obtain ⟨r, hresp, hsession, hstate⟩ := (execHPut_end h).transition
    rw [sessionAfter_active] at hsession
    exact ⟨r, hresp, hsession, congrArg CrcCtx.cs (exec_hash_keeps_crc rfl h), by simpa using hstate⟩
  | hFinal =>
    obtain ⟨r, hresp, hsession, hstate⟩ := (execHFinal_end h).transition
    exact ⟨r, hresp, hsession, congrArg CrcCtx.cs (exec_hash_keeps_crc rfl h), by simpa using hstate⟩
  | cPut arg =>
    obtain ⟨r, hresp, hsession, hstate⟩ := (execCPut_end h).transition
    rw [sessionAfter_active] at hsession
    exact ⟨r, hresp, congrArg HashCtx.hs (exec_crc_keeps_hash rfl h), hsession, by simpa using hstate⟩
  | cFinal =>
    obtain ⟨r, hresp, hsession, hstate⟩ := (execCFinal_end h).transition
    exact ⟨r, hresp, congrArg HashCtx.hs (exec_crc_keeps_hash rfl h), hsession, by simpa using hstate⟩
  | rd index =>
    obtain ⟨v, -, rfl⟩ | ⟨-, rfl⟩ := execRd_cases h
    · exact ⟨⟨.ok, v⟩, rfl, rfl, rfl, by simp⟩
    · exact ⟨⟨.eAddr, 0⟩, rfl, rfl, rfl, by simp⟩

/-! ## Precision (R182) -/

theorem Answers.response_eq {s t : State} {code : Code} {data : Word} {r : Response} (h : Answers s t code data)
    (hr : t.responses = s.responses ++ [r]) : r = ⟨code, data⟩ := by
  simpa using hr.symm.trans h

theorem Answers.code_eq_ok {s t : State} {data : Word} {r : Response} (h : Answers s t .ok data)
    (hr : t.responses = s.responses ++ [r]) : r.code = .ok :=
  congrArg Response.code (h.response_eq hr)

theorem SessionEnd.eq_of_error {g : CommandGroup} {success : Session} {s t : State} {r : Response}
    (h : SessionEnd g success s t) (hr : t.responses = s.responses ++ [r]) (hne : r.code ≠ .ok) :
    t = raise s r.code ∨ t = g.fail s r.code := by
  cases h with
  | refused _ =>
    obtain rfl := Answers.response_eq (raise_responses s .eState) hr
    exact .inl rfl
  | @failed code _ _ _ =>
    obtain rfl := (g.fail_answers s code).response_eq hr
    exact .inr rfl
  | succeeded _ hans _ => exact absurd (hans.code_eq_ok hr) hne

/-- The state that an error leaves: the code is raised, or it fails the session of the command's own group. -/
theorem exec_eq_of_error {i : Instr} {s t : State} {r : Response} (h : exec i s = .next t)
    (hr : t.responses = s.responses ++ [r]) (hne : r.code ≠ .ok) :
    t = raise s r.code ∨ (isHashCommand i = true ∧ t = sessionFailHash s r.code) ∨
      (isCrcCommand i = true ∧ t = sessionFailCrc s r.code) := by
  cases i with
  | hInitRaw | hInitHex | hInitText =>
    obtain rfl := hashInit_next h
    exact absurd (Answers.code_eq_ok (respond_responses _ .ok 0) hr) hne
  | cInitText | cInitHex =>
    obtain rfl := crcInit_next h
    exact absurd (Answers.code_eq_ok (respond_responses _ .ok 0) hr) hne
  | hPut arg => exact ((execHPut_end h).eq_of_error hr hne).imp_right fun ht => .inl ⟨rfl, ht⟩
  | hFinal => exact ((execHFinal_end h).eq_of_error hr hne).imp_right fun ht => .inl ⟨rfl, ht⟩
  | cPut arg => exact ((execCPut_end h).eq_of_error hr hne).imp_right fun ht => .inr ⟨rfl, ht⟩
  | cFinal => exact ((execCFinal_end h).eq_of_error hr hne).imp_right fun ht => .inr ⟨rfl, ht⟩
  | rd index =>
    obtain ⟨v, -, rfl⟩ | ⟨-, rfl⟩ := execRd_cases h
    · exact absurd (Answers.code_eq_ok (respond_responses s .ok v) hr) hne
    · obtain rfl := Answers.response_eq (raise_responses s .eAddr) hr
      exact .inl rfl

/-- Settles O34: an illegal word raises E_ILLEGAL, and a command that fails leaves what `exec_eq_of_error` says and answers datum 0
by `exec_answersByRule`. -/
theorem errorsArePrecise : Obligations.ErrorsArePrecise := by
  unfold Obligations.ErrorsArePrecise
  intro s t cw rest r hi h hr hne
  cases hd : decode cw with
  | command i =>
    rw [step_of_command hi hd] at h
    have hend := exec_eq_of_error h hr hne
    obtain ⟨code, data, hans, hdatum, -⟩ := exec_answersByRule h
    obtain rfl := hans.response_eq hr
    obtain rfl | ⟨hgroup, rfl⟩ | ⟨hgroup, rfl⟩ := hend
    · exact ⟨hdatum hne, rfl, .inl ⟨rfl, rfl⟩⟩
    · exact ⟨hdatum hne, rfl, .inr (.inl ⟨⟨i, rfl, hgroup⟩, rfl, rfl⟩)⟩
    · exact ⟨hdatum hne, rfl, .inr (.inr ⟨⟨i, rfl, hgroup⟩, rfl, rfl⟩)⟩
  | illegal why =>
    obtain rfl : illegalCommand s = t := by simpa using (step_of_illegal hi hd).symm.trans h
    obtain rfl := Answers.response_eq (raise_responses s .eIllegal) hr
    exact ⟨rfl, rfl, .inl ⟨rfl, rfl⟩⟩

end Sys2Proof.Machine
end

section
/-! PROOFS. The `rst` input (70_reset_and_hazards.md rule R200): the step that meets it at the port resets, and the reset takes its
input off the port and gives no response. -/

namespace Sys2Proof.Machine

/-- The reset takes off the port the input that asked for it, and no other. -/
theorem resetInput_inputs_of_cons {s : State} {x : PortInput} {rest : List PortInput} (hi : s.inputs = x :: rest) :
    (resetInput s).inputs = rest := by
  rw [resetInput_inputs, hi, List.tail_cons]

/-- Settles O10: the step is `resetInput` by `step_of_reset`, whose effect on each element the lemmas of the port give. -/
theorem resetInputRestoresResetState : Obligations.ResetInputRestoresResetState := by
  unfold Obligations.ResetInputRestoresResetState
  intro s rest hi
  exact ⟨resetInput s, step_of_reset hi, resetInput_hashCtx s, resetInput_crcCtx s, resetInput_err s,
    resetInput_inputs_of_cons hi, resetInput_responses s⟩

end Sys2Proof.Machine
end
